-- ==== Sys2Proof/Word.lean ====
section
/-! DEFINITION. The words of SEG7PACK: every width the spec names (R7 of 00_scope.md, R60 of 30_encoding.md). -/

namespace Sys2Proof

/-- A request word or a response word: one 32-bit value with no byte order (R46, R60). -/
abbrev Word := BitVec 32

/-- One byte of a frame, byteA or byteB (R7 NUM_BYTES). -/
abbrev Byte := BitVec 8

/-- The channel array `ch`: a 16-bit vector in which bit k is channel position k (R8). -/
abbrev Channels := BitVec 16

/-- A segment pattern: 7 bits, 1 = the segment is OFF (R81). -/
abbrev Pattern := BitVec 7

/-- A channel position 0..15 (R7 NUM_CH). -/
abbrev ChannelPos := Fin 16

/-- A decimal digit 0..9, the index of SEG_TABLE (R21). -/
abbrev Digit := Fin 10

/-- RESP_STATUS and FIRST_FAULT: 3 bits (R24, R25). -/
abbrev StatusCode := BitVec 3

end Sys2Proof
end

