-- ==== Sys2Proof/Config.lean ====
section
/-! DEFINITION. The configuration of one SEG7PACK instance (R21 of 10_state.md), the raw arguments of its construction
(R150, R153 of 70_reset_and_hazards.md), the enumerations of the interface (R12) and the names of the request faults (R131). -/

namespace Sys2Proof

/-- The phase of the arm, an input of COMPOSE and FRAME (R12). The fourth code of the PHASE field is not a phase (R66). -/
inductive Phase where
  | red
  | green
  | yellow
  deriving DecidableEq, Repr

/-- The digit position: P1 shows the tens digit, P2 the ones digit (R12). -/
inductive DigitPos where
  | p1
  | p2
  deriving DecidableEq, Repr

/-- The faults a request can raise, in the order of their codes 1 to 5 (R131). They are states of the machine, not stops of the
model: after one the machine goes on (R137). -/
inductive RequestFault where
  /-- code 1: OP is 0x6..0xF. -/
  | illegalOp
  /-- code 2: a must-be-zero bit of the format is 1. -/
  | reservedField
  /-- code 3: PHASE = 3 in COMPOSE or FRAME. -/
  | badPhase
  /-- code 4: ENCODE with DIGIT in 10..15. -/
  | digitRange
  /-- code 5: a countdown outside 0..199 that has to be split. -/
  | displayRange
  deriving DecidableEq, Repr

/-- The configuration registers CFG (R21): written once, by construction, read-only from then on. Positions are 4 bits wide
(0..15), patterns 7 bits, DEN_ON one logic level, INIT_FILL 16 bits. -/
structure Cfg where
  /-- SEGPOS[j], j = 0..6: the channel position of segment slot j (the source's `tensPin[j]`). -/
  segPos : Vector ChannelPos 7
  /-- DENPOS[0] tens (P1), DENPOS[1] ones (P2). -/
  denPos : Vector ChannelPos 2
  /-- COLPOS[RED], COLPOS[GREEN], COLPOS[YELLOW], in the numbering of R12. -/
  colPos : Vector ChannelPos 3
  /-- SEG_TABLE[d], d = 0..9. OPEN (D13): any ten patterns. -/
  segTable : Vector Pattern 10
  /-- DEN_ON: the level that enables a digit. OPEN (D15). -/
  denOn : Bool
  /-- INIT_FILL: the channel array before any channel is written. OPEN (D16). -/
  initFill : Channels
  deriving DecidableEq, Repr

/-- The arguments of a construction as the constructor presents them: plain numbers, each of which may lie outside its field's
legal values (R21, R22). All are given at once: no partial configuration exists (R153). -/
structure ConstructionArgs where
  segPos : Vector Nat 7
  denPos : Vector Nat 2
  colPos : Vector Nat 3
  segTable : Vector Nat 10
  denOn : Nat
  initFill : Nat
  deriving DecidableEq, Repr

/-- The segment table State.reset holds, REF_SEG of 95_test_vectors.md. PRESUMED (log entry 4): general knowledge, item G1 of
93_implementation_defined.md. No statement rests on it. -/
def Config.resetSegTable : Vector Pattern 10 :=
  #v[0x40#7, 0x79#7, 0x24#7, 0x30#7, 0x19#7, 0x12#7, 0x02#7, 0x78#7, 0x00#7, 0x10#7]

/-- The configuration State.reset holds, REF of 95_test_vectors.md. DESIGN CHOICE (log entry 3): the spec gives no construction
arguments, and REF is the one it lists first for its own vectors. No statement rests on it. -/
def Config.resetCfg : Cfg where
  segPos := #v[0, 1, 2, 3, 4, 5, 6]
  denPos := #v[7, 8]
  colPos := #v[9, 10, 11]
  segTable := Config.resetSegTable
  denOn := false
  initFill := 0xFFFF#16

end Sys2Proof
end

