-- ==== Sys2Proof/Machine/Operands.lean ====
section
/-! DEFINITION. Operand assembly (R68 of 30_encoding.md): every operand form a request word has, and the numbers the
enumerations have in the word (R12). No field is scaled or shifted. -/

namespace Sys2Proof.Machine

/-- The number of a phase: RED 0, GREEN 1, YELLOW 2 (R12). It is also its index in COLPOS. -/
def phaseIndex : Phase → Fin 3
  | .red => 0
  | .green => 1
  | .yellow => 2

/-- The PHASE field of a phase operand; `none` is the code 3 (R66). -/
def phaseField : Option Phase → BitVec 2
  | some p => BitVec.ofNat 2 (phaseIndex p).val
  | none => 3#2

/-- The phase a PHASE field names; 3 is not a phase (R66). -/
def phaseOfField (f : BitVec 2) : Option Phase :=
  match f.toNat with
  | 0 => some .red
  | 1 => some .green
  | 2 => some .yellow
  | _ => none

/-- The POS field: P1 = 0, P2 = 1 (R12, R66). -/
def posField : DigitPos → BitVec 1
  | .p1 => 0#1
  | .p2 => 1#1

/-- The digit position a POS bit names (R66). -/
def posOfBit : Bool → DigitPos
  | false => .p1
  | true => .p2

/-- OP = R[3:0] (R61). -/
def opField (R : Word) : BitVec 4 := R.extractLsb' 0 4

/-- DIGIT: `zext(R[7:4])`, a number in 0..15. -/
def digitOperand (R : Word) : Nat := (R.extractLsb' 4 4).toNat

/-- CH: `R[31:16]`, ch[k] = R[16+k]. -/
def channelsOperand (R : Word) : Channels := R.extractLsb' 16 16

/-- BA = `R[31:24]`. -/
def byteAOperand (R : Word) : Byte := R.extractLsb' 24 8

/-- BB = `R[23:16]`. -/
def byteBOperand (R : Word) : Byte := R.extractLsb' 16 8

/-- REM: `R[31:16]` sign-extended, a number in -32768..32767. -/
def remainingOperand (R : Word) : Int := (R.extractLsb' 16 16).toInt

/-- PHASE = `R[5:4]`. -/
def phaseOperand (R : Word) : Option Phase := phaseOfField (R.extractLsb' 4 2)

/-- POS = `R[6]`. -/
def posOperand (R : Word) : DigitPos := posOfBit (R.getLsbD 6)

end Sys2Proof.Machine
end

