-- ==== Sys2Proof/Syntax.lean ====
section
/-! DEFINITION. The six requests of SEG7PACK (R61 of 30_encoding.md), one constructor per row of opcode_table.json. Operands are
the assembled ones of R68: no raw field of the word is left. -/

namespace Sys2Proof

/-- A decoded request. A PHASE operand of `none` is the code 3, "not a phase" (R66). Operands are numbers, so that some
values fit no word (DESIGN CHOICE, log entry 10); WellFormed.lean says which. -/
inductive Instr where
  /-- ENCODE d: DIGIT as an unsigned number (R62, R80). -/
  | encode (digit : Nat)
  /-- PACK c: the channel array (R63, R90). -/
  | pack (ch : Channels)
  /-- UNPACK a, b: byteA and byteB (R64, R91). -/
  | unpack (byteA byteB : Byte)
  /-- SPLIT r: the countdown as a signed number (R65, R102). -/
  | split (remaining : Int)
  /-- COMPOSE ph, pos, r (R66, R108). -/
  | compose (phase : Option Phase) (pos : DigitPos) (remaining : Int)
  /-- FRAME ph, r (R66, R109). -/
  | frame (phase : Option Phase) (remaining : Int)
  deriving DecidableEq, Repr

end Sys2Proof
end

