-- ==== Sys2Proof/WellFormed.lean ====
section
/-! DEFINITION. Which requests the encoding can hold: DIGIT has 4 bits (D10, R62), REM has 16 bits in two's complement (D11, R68). -/

namespace Sys2Proof

/-- DIGIT is 0..15 (R72 `ENCODE d`, for d in 0..15). -/
def digitFits (digit : Nat) : Bool := decide (digit ≤ 15)

/-- REM is -32768..32767 (R68, R72). -/
def remainingFits (remaining : Int) : Bool := decide (-32768 ≤ remaining ∧ remaining ≤ 32767)

/-- The operands lie in the ranges of R72. -/
def Instr.wellFormed : Instr → Bool
  | .encode digit => digitFits digit
  | .pack _ => true
  | .unpack _ _ => true
  | .split remaining => remainingFits remaining
  | .compose _ _ remaining => remainingFits remaining
  | .frame _ remaining => remainingFits remaining

end Sys2Proof
end

