-- ==== Sys2Proof/Decode.lean ====
section
/-! DEFINITION. The decoder, total on all 32-bit words and rejecting by fault name (R69, R70 of 30_encoding.md, R132 of
60_exceptions.md), and after it the encoder, written from the format tables R62 to R66. -/

namespace Sys2Proof

open Machine

/-- The six operations of the OP field (R61). -/
inductive Op where
  | encode
  | pack
  | unpack
  | split
  | compose
  | frame
  deriving DecidableEq, Repr

/-- The operation with a number; 0x6 and above name none (R61). -/
def opNumbered : Nat → Option Op
  | 0 => some .encode
  | 1 => some .pack
  | 2 => some .unpack
  | 3 => some .split
  | 4 => some .compose
  | 5 => some .frame
  | _ => none

/-- The operation an OP field names (R61). -/
def opOfField (f : BitVec 4) : Option Op := opNumbered f.toNat

/-- No must-be-zero bit of the operation's format is 1: bits 31:8 (R62), 15:4 (R63, R64, R65), 15:7 and 15:6 (R66). -/
def mustBeZeroClear (op : Op) (R : Word) : Bool :=
  match op with
  | .encode => decide (R.extractLsb' 8 24 = 0#24)
  | .pack => decide (R.extractLsb' 4 12 = 0#12)
  | .unpack => decide (R.extractLsb' 4 12 = 0#12)
  | .split => decide (R.extractLsb' 4 12 = 0#12)
  | .compose => decide (R.extractLsb' 7 9 = 0#9)
  | .frame => decide (R.extractLsb' 6 10 = 0#10)

/-- Dispatch: the operation with its operands assembled (R68). -/
def assemble (op : Op) (R : Word) : Instr :=
  match op with
  | .encode => .encode (digitOperand R)
  | .pack => .pack (channelsOperand R)
  | .unpack => .unpack (byteAOperand R) (byteBOperand R)
  | .split => .split (remainingOperand R)
  | .compose => .compose (phaseOperand R) (posOperand R) (remainingOperand R)
  | .frame => .frame (phaseOperand R) (remainingOperand R)

/-- `decode(R)` of R69: OP first, then the must-be-zero bits, then dispatch. -/
def decode (R : Word) : Except RequestFault Instr :=
  match opOfField (opField R) with
  | none => .error .illegalOp
  | some op => if mustBeZeroClear op R then .ok (assemble op R) else .error .reservedField

/-- The request whose word is `w`, a number of `nbits` bits. A request is exactly one 32-bit word with no byte order, so the
number is the word (R60; DEDUCED, log entry 5). A number with a bit above bit 31 is no request. -/
def decodeTableWord (nbits w : Nat) : Option Instr :=
  if w % 2 ^ nbits < 2 ^ 32 then (decode (BitVec.ofNat 32 (w % 2 ^ nbits))).toOption else none

/-- The operation field of a request (R61). -/
def opNumber : Instr → BitVec 4
  | .encode _ => 0x0#4
  | .pack _ => 0x1#4
  | .unpack _ _ => 0x2#4
  | .split _ => 0x3#4
  | .compose _ _ _ => 0x4#4
  | .frame _ _ => 0x5#4

/-- The word of a request, its fields from bit 31 down as the tables of R62 to R66 list them. SPLIT, COMPOSE and FRAME hold
r mod 65536 (R72). -/
def encode (i : Instr) : Word :=
  match i with
  | .encode digit => 0#24 ++ BitVec.ofNat 4 digit ++ opNumber i
  | .pack ch => ch ++ 0#12 ++ opNumber i
  | .unpack byteA byteB => byteA ++ byteB ++ 0#12 ++ opNumber i
  | .split remaining => BitVec.ofInt 16 remaining ++ 0#12 ++ opNumber i
  | .compose phase pos remaining => BitVec.ofInt 16 remaining ++ 0#9 ++ posField pos ++ phaseField phase ++ opNumber i
  | .frame phase remaining => BitVec.ofInt 16 remaining ++ 0#10 ++ phaseField phase ++ opNumber i

end Sys2Proof
end

