-- ==== Sys2Proof/Machine/Flags.lean ====
section
/-! DEFINITION. The status values and the sticky fault record. SEG7PACK has no condition codes (R28 of 10_state.md); RESP_STATUS,
FAULTED and FIRST_FAULT are the only status bits, written by every request and read by none. -/

namespace Sys2Proof.Machine

/-- RESP_STATUS of a successful request (R67, R131). -/
def successStatus : StatusCode := 0#3

/-- The code of a request fault (R131). -/
def faultCode : RequestFault → StatusCode
  | .illegalOp => 1#3
  | .reservedField => 2#3
  | .badPhase => 3#3
  | .digitRange => 4#3
  | .displayRange => 5#3

/-- The code of CONFIG_INVALID (R131): reported by a construction, never held by a state. -/
def configInvalidCode : StatusCode := 6#3

/-- FIRST_FAULT after a fault `f`: written only when none is recorded (R130). -/
def firstFaultAfter (faulted : Bool) (firstFault : StatusCode) (f : RequestFault) : StatusCode :=
  bif faulted then firstFault else faultCode f

end Sys2Proof.Machine
end

