-- ==== Sys2Proof/Machine/State.lean ====
section
/-! DEFINITION. The state of one SEG7PACK instance: CFG, RESP and the fault record (R20 of 10_state.md), and the model's own
list of presented requests; the state after construction (R32); the two ways the model itself can stop. -/

namespace Sys2Proof.Machine

/-- The state (R20), plain data; one State is one instance (R31; log entry 12). The block has no memory, no general register and no program counter (R26, R27, R40). -/
structure State where
  /-- CFG: the configuration registers (R21). -/
  cfg : Cfg
  /-- RESP_VALID (R24). -/
  respValid : Bool
  /-- RESP_STATUS: 0 for success, else a fault code (R24, R131). -/
  respStatus : StatusCode
  /-- RESP_DATA: `none` is "no value" (R24, R133; DEDUCED, log entry 6). -/
  respData : Option Word
  /-- FAULTED, sticky (R25). -/
  faulted : Bool
  /-- FIRST_FAULT: the code of the first fault since construction, or 0 (R25). -/
  firstFault : StatusCode
  /-- The MODEL's OWN field (DESIGN CHOICE, log entry 1): the words the requester has presented and the block has not served, oldest first
  (R27, R51). -/
  requests : List Word
  deriving DecidableEq, Repr

/-- The ways the model can stop with a fault. No instruction and no step raises one. -/
inductive Fault where
  /-- RESP_DATA was read while it holds no value. Raised by the requester's read `State.readRespData` alone (R24, R32, R133).
  Safe: nothing can be proved about a value that is not there. -/
  | respDataHasNoValue
  deriving DecidableEq, Repr

/-- The ways the model can refuse. No instruction and no step raises one. -/
inductive Refusal where
  /-- CONFIG_INVALID, code 6: the arguments of a construction fail R21 or R22. Raised by `construct` alone (R136). Safe: no
  instance exists. -/
  | configInvalid
  /-- An instruction that has no meaning yet, by mnemonic. Raised by nothing: every arm of exec has its meaning. Safe. -/
  | notModelled (mnemonic : String)
  deriving DecidableEq, Repr

/-- The state after a construction with configuration `c` (R32, R150): no response, no data value, no fault recorded. -/
def State.afterConstruction (c : Cfg) : State where
  cfg := c
  respValid := false
  respStatus := 0#3
  respData := none
  faulted := false
  firstFault := 0#3
  requests := []

/-- The machine right after reset: the state of R32 for the configuration log entries 3 and 4 name. -/
def State.reset : State := State.afterConstruction Config.resetCfg

end Sys2Proof.Machine
end

