-- ==== Sys2Proof/Machine/Ops.lean ====
section
/-! DEFINITION. The shared operations: bits and channels (R8, R9 of 00_scope.md), writing the response (R24), TAKING A FAULT
(R130 of 60_exceptions.md), completing a request, and the requester's read of RESP_DATA (R133). There is no return from a
fault beside it: a fault has no handler, and the next request is served normally (R137). -/

namespace Sys2Proof.Machine

/-- The n-bit vector whose bit i is `f i` (the loops `v[i] <- …` of R90 and R91). -/
def bitsFrom : (n : Nat) → (Nat → Bool) → BitVec n
  | 0, _ => 0#0
  | n + 1, f => BitVec.cons (f n) (bitsFrom n f)

/-- `set(ch, k, b)`: ch with bit k replaced by b (R9). -/
def setChannel (ch : Channels) (k : ChannelPos) (b : Bool) : Channels :=
  if b then ch ||| BitVec.twoPow 16 k.val else ch &&& ~~~(BitVec.twoPow 16 k.val)

/-- A list of `set` writes, done in order (R108). -/
def applyWrites (ch : Channels) (writes : List (ChannelPos × Bool)) : Channels :=
  writes.foldl (fun ch w => setChannel ch w.1 w.2) ch

/-- A successful response: all three fields of RESP are written, the fault record is not (R24). -/
def State.respond (s : State) (data : Word) : State :=
  { s with respValid := true, respStatus := successStatus, respData := some data }

/-- TAKING A FAULT, `on raise <Fault f>` of R130: this and nothing else happens. CFG is unchanged; no output of the request
becomes visible. A request fault is a next state, not a stop of the model (DEDUCED, log entry 7). -/
def State.raise (s : State) (f : RequestFault) : State :=
  { s with
    respValid := true
    respStatus := faultCode f
    respData := none
    firstFault := firstFaultAfter s.faulted s.firstFault f
    faulted := true }

/-- A request ends with its data or with one fault (R24, R130). Either way the machine goes on (R137). -/
def complete (result : Except RequestFault Word) (s : State) : Host.Outcome State Fault Refusal :=
  match result with
  | .ok data => .next (s.respond data)
  | .error f => .next (s.raise f)

/-- The requester's read of RESP_DATA: a number after a success, a model fault where it holds no value (R24, R32, R133). -/
def State.readRespData (s : State) : Host.Outcome Word Fault Refusal :=
  match s.respData with
  | some data => .next data
  | none => .fault .respDataHasNoValue

end Sys2Proof.Machine
end

