-- ==== Sys2Proof/Machine/FramePacker.lean ====
section
/-! DEFINITION. The frame bit packer: PACK, UNPACK (R90 to R93 of 41_frame_packer.md), the frame word (R45) and the serial order
of a frame (R42 to R44 of 20_memory.md). -/

namespace Sys2Proof.Machine

/-- A frame: the ordered pair (byteA, byteB) (R41). -/
structure Frame where
  byteA : Byte
  byteB : Byte
  deriving DecidableEq, Repr

/-- `pack(ch)`: byteA[i] = ch[15-i], byteB[i] = ch[7-i] (R90). -/
def packFrame (ch : Channels) : Frame where
  byteA := bitsFrom 8 fun i => ch.getLsbD (15 - i)
  byteB := bitsFrom 8 fun i => ch.getLsbD (7 - i)

/-- `unpack(a, b)`: ch[15-i] = a[i], ch[7-i] = b[i] (R91). -/
def unpackFrame (f : Frame) : Channels :=
  bitsFrom 16 fun k => if k ≤ 7 then f.byteB.getLsbD (7 - k) else f.byteA.getLsbD (15 - k)

/-- The 16-bit frame word W = byteA : byteB (R45). -/
def frameWord (f : Frame) : BitVec 16 := f.byteA ++ f.byteB

/-- The bits of a byte in the order they are sent, least significant first (R42). -/
def byteStream (b : Byte) : List Bool := (List.range 8).map fun i => b.getLsbD i

/-- The 16 bits of a frame in the order they leave the block's interface: byteA, then byteB (R43, R44; DEDUCED, log entry 11). -/
def serialStream (f : Frame) : List Bool := byteStream f.byteA ++ byteStream f.byteB

/-- PACK c (R90). -/
def execPack (ch : Channels) (s : State) : Host.Outcome State Fault Refusal :=
  complete (.ok ((frameWord (packFrame ch)).setWidth 32)) s

/-- UNPACK a, b (R91). -/
def execUnpack (byteA byteB : Byte) (s : State) : Host.Outcome State Fault Refusal :=
  complete (.ok ((unpackFrame ⟨byteA, byteB⟩).setWidth 32)) s

end Sys2Proof.Machine
end

