-- ==== Sys2Proof/Machine/SegmentEncoder.lean ====
section
/-! DEFINITION. The segment encoder: ENCODE (R80 to R83 of 40_segment_encoder.md). -/

namespace Sys2Proof.Machine

/-- SEG_TABLE[d] (R80). -/
def segPattern (c : Cfg) (d : Digit) : Pattern := c.segTable[d]

/-- The result of ENCODE: the pattern in bits 6:0, or DIGIT_RANGE for d > 9 (R80). -/
def encodeResult (c : Cfg) (digit : Nat) : Except RequestFault Word :=
  if h : digit < 10 then .ok ((segPattern c ⟨digit, h⟩).setWidth 32) else .error .digitRange

/-- ENCODE d (R80). -/
def execEncode (digit : Nat) (s : State) : Host.Outcome State Fault Refusal := complete (encodeResult s.cfg digit) s

end Sys2Proof.Machine
end

