-- ==== Sys2Proof/Machine/FrameComposer.lean ====
section
/-! DEFINITION. Frame composition: SPLIT, COMPOSE, FRAME (R100 to R111 of 42_frame_composer.md). -/

namespace Sys2Proof.Machine

/-- The display value of a countdown (R100). The subtraction is applied once. -/
def displayValue (r : Int) : Int := if r ≤ 99 then r else r - 100

/-- `split(r)`: the tens and ones digits, or DISPLAY_RANGE for a display value outside 0..99 (R101, R102). -/
def splitDigits (r : Int) : Except RequestFault (Digit × Digit) :=
  if h : 0 ≤ displayValue r ∧ displayValue r ≤ 99 then
    .ok (⟨(displayValue r).toNat / 10, by omega⟩, ⟨(displayValue r).toNat % 10, by omega⟩)
  else .error .displayRange

/-- The two BCD nibbles of SPLIT: tens in 7:4, ones in 3:0 (R67, R102). -/
def bcdWord (tens ones : Digit) : Word := (BitVec.ofNat 4 tens.val ++ BitVec.ofNat 4 ones.val).setWidth 32

/-- The result of SPLIT (R102). -/
def splitResult (r : Int) : Except RequestFault Word :=
  match splitDigits r with
  | .ok (tens, ones) => .ok (bcdWord tens ones)
  | .error f => .error f

/-- The colour writes: 0 (on) to the phase's own channel, 1 (off) to the two others, in every phase (R104). -/
def colourWrites (c : Cfg) (p : Phase) : List (ChannelPos × Bool) :=
  [Phase.red, Phase.green, Phase.yellow].map fun q => (c.colPos[phaseIndex q], decide (q ≠ p))

/-- The digit-enable writes of YELLOW: both disabled (R105, R107). -/
def blankWrites (c : Cfg) : List (ChannelPos × Bool) :=
  [(c.denPos[0], !c.denOn), (c.denPos[1], !c.denOn)]

/-- The digit-enable writes of RED and GREEN: the digit of `pos` enabled, the other disabled (R105). -/
def digitEnableWrites (c : Cfg) (pos : DigitPos) : List (ChannelPos × Bool) :=
  [(c.denPos[0], if pos = .p1 then c.denOn else !c.denOn), (c.denPos[1], if pos = .p2 then c.denOn else !c.denOn)]

/-- The segment writes, with reversed index: bit i of the pattern to SEGPOS[6 - i] (R106). `i.rev` is 6 - i. -/
def segmentWrites (c : Cfg) (pattern : Pattern) : List (ChannelPos × Bool) :=
  [(0 : Fin 7), 1, 2, 3, 4, 5, 6].map fun i => (c.segPos[i.rev], pattern.getLsbD i.val)

/-- The `set` writes of one composition, in the order R108 lists them. In YELLOW the countdown is not read (R107). -/
def composeWrites (c : Cfg) (p : Phase) (pos : DigitPos) (r : Int) : Except RequestFault (List (ChannelPos × Bool)) :=
  match p with
  | .yellow => .ok (colourWrites c .yellow ++ blankWrites c)
  | _ =>
    match splitDigits r with
    | .error f => .error f
    | .ok (tens, ones) =>
      .ok (colourWrites c p ++ digitEnableWrites c pos ++
        segmentWrites c (segPattern c (if pos = .p1 then tens else ones)))

/-- `compose(phase, pos, r)`: BAD_PHASE first (R135), then the writes over INIT_FILL (R103), then the packer (R108). -/
def composeFrame (c : Cfg) (phase : Option Phase) (pos : DigitPos) (r : Int) : Except RequestFault Frame :=
  match phase with
  | none => .error .badPhase
  | some p =>
    match composeWrites c p pos r with
    | .error f => .error f
    | .ok writes => .ok (packFrame (applyWrites c.initFill writes))

/-- The result of COMPOSE: one frame in bits 15:0 (R108). -/
def composeResult (c : Cfg) (phase : Option Phase) (pos : DigitPos) (r : Int) : Except RequestFault Word :=
  match composeFrame c phase pos r with
  | .error f => .error f
  | .ok f => .ok ((frameWord f).setWidth 32)

/-- The result of FRAME: the P1 frame in bits 31:16, the P2 frame in bits 15:0; one fault, and no partial frame, if either
composition faults (R109). -/
def frameResult (c : Cfg) (phase : Option Phase) (r : Int) : Except RequestFault Word :=
  match composeFrame c phase .p1 r with
  | .error f => .error f
  | .ok f1 =>
    match composeFrame c phase .p2 r with
    | .error f => .error f
    | .ok f2 => .ok (frameWord f1 ++ frameWord f2)

/-- SPLIT r (R102). -/
def execSplit (remaining : Int) (s : State) : Host.Outcome State Fault Refusal := complete (splitResult remaining) s

/-- COMPOSE ph, pos, r (R108). -/
def execCompose (phase : Option Phase) (pos : DigitPos) (remaining : Int) (s : State) : Host.Outcome State Fault Refusal :=
  complete (composeResult s.cfg phase pos remaining) s

/-- FRAME ph, r (R109). -/
def execFrame (phase : Option Phase) (remaining : Int) (s : State) : Host.Outcome State Fault Refusal :=
  complete (frameResult s.cfg phase remaining) s

end Sys2Proof.Machine
end

