-- ==== Sys2Proof/Machine/Dispatch.lean ====
section
/-! DEFINITION. The dispatch of a decoded request to its meaning: one arm per constructor (R61 of 30_encoding.md). -/

namespace Sys2Proof.Machine

def exec (i : Instr) (s : State) : Host.Outcome State Fault Refusal :=
  match i with
  | .encode digit => Sys2Proof.Machine.execEncode digit s
  | .pack ch => Sys2Proof.Machine.execPack ch s
  | .unpack byteA byteB => Sys2Proof.Machine.execUnpack byteA byteB s
  | .split remaining => Sys2Proof.Machine.execSplit remaining s
  | .compose phase pos remaining => Sys2Proof.Machine.execCompose phase pos remaining s
  | .frame phase remaining => Sys2Proof.Machine.execFrame phase remaining s

end Sys2Proof.Machine
end

