-- ==== Sys2Proof/Machine/Serve.lean ====
section
/-! DEFINITION. Serving one request word: decode, then the request's meaning or the decode fault (R69 of 30_encoding.md, R132 of
60_exceptions.md). -/

namespace Sys2Proof.Machine

/-- One request word served whole (R48, R51): a word that does not decode takes its decode fault (R130, R132). -/
def serve (R : Word) (s : State) : Host.Outcome State Fault Refusal :=
  match decode R with
  | .ok i => exec i s
  | .error f => .next (s.raise f)

/-- The word w of nbits bits, presented as the next request (DEDUCED, log entry 5). -/
def presentFirst (s : State) (nbits w : Nat) : State :=
  { s with requests := BitVec.ofNat 32 (w % 2 ^ nbits) :: s.requests }

end Sys2Proof.Machine
end

