-- ==== Sys2Proof/Machine/Step.lean ====
section
/-! DEFINITION. One step of the machine: the oldest presented request is taken and served (R51 of 20_memory.md, R156 of
70_reset_and_hazards.md). -/

namespace Sys2Proof.Machine

/-- One step serves one request. With no request presented the block does nothing (R49; DESIGN CHOICE, log entry 2). A request is
one untimed step (R156; DEDUCED, log entry 13). -/
def step (s : State) : Host.Outcome State Fault Refusal :=
  match s.requests with
  | [] => .next s
  | R :: rest => serve R { s with requests := rest }

/-- s with the request of `nbits` bits `w` presented as the very next one (log entry 5). -/
def State.withFetchWord (s : State) (nbits w : Nat) : State := presentFirst s nbits w

end Sys2Proof.Machine
end

