-- ==== Sys2Proof/Machine/Construction.lean ====
section
/-! DEFINITION. Construction, the block's only reset (R150, R153 of 70_reset_and_hazards.md): the check of the arguments (R21,
R22 of 10_state.md), CONFIG_INVALID (R136 of 60_exceptions.md), and the unmapped positions (R23). -/

namespace Sys2Proof.Machine

/-- The 12 mapped positions SEGPOS[0..6], DENPOS[0..1], COLPOS[RED,GREEN,YELLOW] (R22). -/
def positions (c : Cfg) : List ChannelPos := c.segPos.toList ++ c.denPos.toList ++ c.colPos.toList

/-- The 12 positions are pairwise distinct (R22 item 2). Item 1 holds by the width of a position. A Cfg value that is not
accepted can be written down but no construction gives it (DESIGN CHOICE, log entry 8). -/
def accepted (c : Cfg) : Bool := decide (positions c).Nodup

/-- UNMAPPED: the positions that are not among the 12 (R23). -/
def unmapped (c : Cfg) : List ChannelPos := (List.finRange 16).filter fun k => !(positions c).contains k

/-- The 12 positions of the arguments, as numbers. -/
def argPositions (a : ConstructionArgs) : List Nat := a.segPos.toList ++ a.denPos.toList ++ a.colPos.toList

/-- Every argument is a legal value of its field (R21), the positions among them (R22 item 1; DEDUCED, log entry 9). -/
def argsLegal (a : ConstructionArgs) : Bool :=
  (argPositions a).all (fun k => decide (k < 16)) &&
  a.segTable.toList.all (fun s => decide (s < 128)) &&
  decide (a.denOn < 2) &&
  decide (a.initFill < 65536)

/-- The arguments are accepted (R21, R22). -/
def argsAccepted (a : ConstructionArgs) : Bool := argsLegal a && decide (argPositions a).Nodup

/-- A vector with each entry narrowed to its field. -/
def narrow {α : Type} {n : Nat} (f : Nat → α) (xs : Vector Nat n) : Vector α n :=
  ⟨(xs.toList.map f).toArray, by simp⟩

/-- The CFG registers that hold the arguments. -/
def cfgOfArgs (a : ConstructionArgs) : Cfg where
  segPos := narrow (Fin.ofNat 16) a.segPos
  denPos := narrow (Fin.ofNat 16) a.denPos
  colPos := narrow (Fin.ofNat 16) a.colPos
  segTable := narrow (BitVec.ofNat 7) a.segTable
  denOn := a.denOn == 1
  initFill := BitVec.ofNat 16 a.initFill

/-- Construction: the state of R32, or a refusal of the configuration value (R136). -/
def construct (a : ConstructionArgs) : Host.Outcome State Fault Refusal :=
  if argsAccepted a then .next (State.afterConstruction (cfgOfArgs a)) else .refused .configInvalid

end Sys2Proof.Machine
end

