-- ==== Sys2Proof/Safety.lean ====
section
/-! DEFINITION. What counts as a safe run of SEG7PACK, and the words the claims are stated in: the two outcomes of a request
written as plain records, the fault class of a word in plain arithmetic, the channels of a composed frame, the invariant. None
of these is used by the machine. -/

namespace Sys2Proof.Machine

/-- No fault is recorded: the condition R25 puts on every claim about a run. -/
def noFaultRecorded (s : State) : Bool := !s.faulted

/-- What a successful request leaves (R24): RESP written, nothing else. -/
def afterSuccess (s : State) (data : Word) : State :=
  { s with respValid := true, respStatus := 0#3, respData := some data }

/-- What a request that faults with code `f` leaves (R130): RESP and the fault record written, nothing else. -/
def afterFault (s : State) (f : StatusCode) : State :=
  { s with
    respValid := true
    respStatus := f
    respData := none
    firstFault := bif s.faulted then s.firstFault else f
    faulted := true }

/-- The state when the request it has just taken is gone from the list and the words `rest` remain. -/
def withRequests (s : State) (rest : List Word) : State := { s with requests := rest }

/-- A 16-bit number read in two's complement (R68). -/
def signed16 (n : Nat) : Int := if n < 32768 then (n : Int) else (n : Int) - 65536

/-- The phase with a number, and none for 3 (R12, R66). -/
def phaseNumbered : Nat → Option Phase
  | 0 => some .red
  | 1 => some .green
  | 2 => some .yellow
  | _ => none

/-- A must-be-zero bit of the format of operation `op` is 1 in the word `n` (R62 to R66), in arithmetic. -/
def reservedBitSet (op n : Nat) : Bool :=
  match op with
  | 0 => n / 256 != 0
  | 4 => n / 128 % 512 != 0
  | 5 => n / 64 % 1024 != 0
  | _ => n / 16 % 4096 != 0

/-- The status a request word must get, from the table of R131 and the order of R135 alone, in arithmetic on the word. A
countdown field is outside 0..199 exactly when it is 200 or more as an unsigned number. -/
def expectedStatus (R : Word) : StatusCode :=
  let n := R.toNat
  let op := n % 16
  let phase := n / 16 % 4
  if 6 ≤ op then 1#3
  else if reservedBitSet op n then 2#3
  else if (op = 4 ∨ op = 5) ∧ phase = 3 then 3#3
  else if op = 0 ∧ 10 ≤ n / 16 % 16 then 4#3
  else if (op = 3 ∨ (op = 4 ∨ op = 5) ∧ phase ≠ 2) ∧ 200 ≤ n / 65536 then 5#3
  else 0#3

/-- The code of the first word of a list whose expected status is a fault, or `d` if there is none (R25). -/
def firstFaultOf (Rs : List Word) (d : StatusCode) : StatusCode :=
  match Rs with
  | [] => d
  | R :: rest => if expectedStatus R = 0#3 then firstFaultOf rest d else expectedStatus R

/-- Channel k of the frame that stands in bits 15:0 of a response word (R67, R93): channels 15..8 in byteA reversed, channels
7..0 in byteB reversed. -/
def channelOf (data : Word) (k : Nat) : Bool := if k ≤ 7 then data.getLsbD (7 - k) else data.getLsbD (23 - k)

/-- The digit a countdown shows at a position (R100, R102, R106). -/
def shownDigit (pos : DigitPos) (r : Int) : Nat :=
  let v := (if r ≤ 99 then r else r - 100).toNat
  if pos = .p1 then v / 10 else v % 10

/-- What R103 to R107 say of all 16 channels of a composed frame, and that nothing else stands in the response word. -/
structure ComposedFrame (c : Cfg) (p : Phase) (pos : DigitPos) (r : Int) (data : Word) : Prop where
  fits : data.toNat < 65536
  colour : ∀ q : Phase, channelOf data (c.colPos[phaseIndex q]) = decide (q ≠ p)
  tensEnable : channelOf data (c.denPos[0]) = (if p ≠ .yellow ∧ pos = .p1 then c.denOn else !c.denOn)
  onesEnable : channelOf data (c.denPos[1]) = (if p ≠ .yellow ∧ pos = .p2 then c.denOn else !c.denOn)
  segments : p ≠ .yellow → ∃ pattern : Pattern, c.segTable[shownDigit pos r]? = some pattern ∧
    ∀ i : Fin 7, channelOf data (c.segPos[(6 - i.val : Nat)]) = pattern.getLsbD i.val
  blank : p = .yellow → ∀ j : Fin 7, channelOf data (c.segPos[j]) = c.initFill.getLsbD (c.segPos[j]).val
  unwritten : ∀ k : ChannelPos, k ∉ positions c → channelOf data k = c.initFill.getLsbD k.val

/-- The invariant of the machine: the configuration is an accepted one, and RESP and the fault record agree with each other. -/
structure Inv (s : State) : Prop where
  /-- R22: no instance exists with another configuration. -/
  cfgAccepted : accepted s.cfg = true
  /-- R24, R133: RESP_DATA holds a value exactly after a successful request. -/
  dataIffSuccess : s.respData.isSome = true ↔ s.respValid = true ∧ s.respStatus = 0#3
  /-- R131: 0 to 5; the codes 6 and 7 are never held. -/
  statusLegal : s.respStatus.toNat ≤ 5
  /-- R131. -/
  firstFaultLegal : s.firstFault.toNat ≤ 5
  /-- R25: FIRST_FAULT is 0 exactly while no fault has occurred. -/
  faultedIffCode : s.faulted = true ↔ s.firstFault ≠ 0#3
  /-- R130: a fault that RESP shows is recorded. -/
  statusRecorded : s.respStatus ≠ 0#3 → s.faulted = true
  /-- R32: before the first request, no status and no fault. -/
  quietBeforeFirst : s.respValid = false → s.respStatus = 0#3 ∧ s.faulted = false

end Sys2Proof.Machine
end

