-- ==== Sys2Proof/Certificates/Slice0/Obligations.lean ====
section
/-! DEFINITION. The statements for the provers. Each says what the machine does in terms of plain records (`afterSuccess`,
`afterFault` of Safety.lean) and arithmetic on the request word, not of the meanings' own functions, and holds for every
configuration, RESP and fault record, unless a hypothesis says otherwise. -/

open Sys2Proof Sys2Proof.Machine

/-! ### Encoding -/

/-- R61, R69, R132 and the formats of R62 to R66, with the operands of R68: the decoder's answer on every word, in arithmetic on
the word. -/
def Obligations.DecodeFollowsTheFormats : Prop :=
  ∀ R : Word,
    (6 ≤ R.toNat % 16 → decode R = .error .illegalOp) ∧
    (R.toNat % 16 = 0 → decode R =
      if R.toNat / 256 = 0 then .ok (.encode (R.toNat / 16 % 16)) else .error .reservedField) ∧
    (R.toNat % 16 = 1 → decode R =
      if R.toNat / 16 % 4096 = 0 then .ok (.pack (BitVec.ofNat 16 (R.toNat / 65536))) else .error .reservedField) ∧
    (R.toNat % 16 = 2 → decode R =
      if R.toNat / 16 % 4096 = 0 then
        .ok (.unpack (BitVec.ofNat 8 (R.toNat / 16777216)) (BitVec.ofNat 8 (R.toNat / 65536 % 256)))
      else .error .reservedField) ∧
    (R.toNat % 16 = 3 → decode R =
      if R.toNat / 16 % 4096 = 0 then .ok (.split (signed16 (R.toNat / 65536))) else .error .reservedField) ∧
    (R.toNat % 16 = 4 → decode R =
      if R.toNat / 128 % 512 = 0 then
        .ok (.compose (phaseNumbered (R.toNat / 16 % 4)) (if R.toNat / 64 % 2 = 0 then .p1 else .p2)
          (signed16 (R.toNat / 65536)))
      else .error .reservedField) ∧
    (R.toNat % 16 = 5 → decode R =
      if R.toNat / 64 % 1024 = 0 then
        .ok (.frame (phaseNumbered (R.toNat / 16 % 4)) (signed16 (R.toNat / 65536)))
      else .error .reservedField)

/-- R69: OP above 5 first, then the must-be-zero bits, then dispatch; and a word satisfies a row's mask and match exactly when
decoding reaches that operation. The numbers are those of opcode_table.json. -/
def Obligations.DecodeAgreesWithOpcodeTable : Prop :=
  ∀ R : Word,
    (6 ≤ R.toNat % 16 → decode R = .error .illegalOp) ∧
    (R.toNat % 16 ≤ 5 → (∃ i, decode R = .ok i) ∨ decode R = .error .reservedField) ∧
    ((∃ d, decode R = .ok (.encode d)) ↔ R &&& 0xFFFFFF0F#32 = 0x00000000#32) ∧
    ((∃ ch, decode R = .ok (.pack ch)) ↔ R &&& 0x0000FFFF#32 = 0x00000001#32) ∧
    ((∃ a b, decode R = .ok (.unpack a b)) ↔ R &&& 0x0000FFFF#32 = 0x00000002#32) ∧
    ((∃ r, decode R = .ok (.split r)) ↔ R &&& 0x0000FFFF#32 = 0x00000003#32) ∧
    ((∃ ph pos r, decode R = .ok (.compose ph pos r)) ↔ R &&& 0x0000FF8F#32 = 0x00000004#32) ∧
    ((∃ ph r, decode R = .ok (.frame ph r)) ↔ R &&& 0x0000FFCF#32 = 0x00000005#32)

/-- HEADLINE (encoding). For every well-formed request, with every operand at every value the encoding admits, decoding its word
gives it back. -/
def Obligations.DecodeOfEncodeIsTheRequest : Prop :=
  ∀ i : Instr, i.wellFormed = true → decode (encode i) = .ok i

/-- The other direction: what decodes is well formed, and its word is the word it was decoded from (R73: one word each). -/
def Obligations.EncodeOfDecodedIsTheWord : Prop :=
  ∀ (R : Word) (i : Instr), decode R = .ok i → i.wellFormed = true ∧ encode i = R

/-- Words written out from the formats R62 to R66, one for each operation and one for each decode fault. -/
def Obligations.WrittenOutWordsDecode : Prop :=
  decode 0b00000000000000000000000001110000#32 = .ok (.encode 7) ∧
  decode 0b00010010001101000000000000000001#32 = .ok (.pack 0x1234#16) ∧
  decode 0b01001000001011000000000000000010#32 = .ok (.unpack 0x48#8 0x2C#8) ∧
  decode 0b11111111111111110000000000000011#32 = .ok (.split (-1)) ∧
  decode 0b00000000000101010000000001010100#32 = .ok (.compose (some .green) .p2 21) ∧
  decode 0b11111111111110110000000000100101#32 = .ok (.frame (some .yellow) (-5)) ∧
  decode 0b00000000110010000000000000110100#32 = .ok (.compose none .p1 200) ∧
  decode 0b11111111111111111111111111111111#32 = .error .illegalOp ∧
  decode 0b00000000000000000000000101110000#32 = .error .reservedField

/-! ### Reset and construction -/

/-- R32: after an accepted construction every CFG field is its argument, RESP is empty, no fault is recorded; reading RESP_DATA is
a model fault. -/
def Obligations.ConstructionSetsEveryField : Prop :=
  ∀ a : ConstructionArgs, argsAccepted a = true →
    ∃ s, construct a = .next s ∧
      (∀ j : Fin 7, (s.cfg.segPos[j]).val = a.segPos[j]) ∧
      (∀ j : Fin 2, (s.cfg.denPos[j]).val = a.denPos[j]) ∧
      (∀ j : Fin 3, (s.cfg.colPos[j]).val = a.colPos[j]) ∧
      (∀ d : Fin 10, (s.cfg.segTable[d]).toNat = a.segTable[d]) ∧
      a.denOn = s.cfg.denOn.toNat ∧
      s.cfg.initFill.toNat = a.initFill ∧
      s.respValid = false ∧ s.respStatus = 0#3 ∧ s.readRespData = .fault .respDataHasNoValue ∧
      s.faulted = false ∧ s.firstFault = 0#3

/-- R22 and R136, with the legal values of R21: construction is refused with CONFIG_INVALID exactly when an argument is outside
its legal values or two of the 12 positions are equal; otherwise an instance exists, and its positions are distinct. R22 lists
checks on the positions only: that a SEG_TABLE, DEN_ON or INIT_FILL argument outside its legal values is refused with the same
CONFIG_INVALID is the model's inference from R21 (log entry 9, DEDUCED). -/
def Obligations.ConstructionRefusesExactlyBadArguments : Prop :=
  ∀ a : ConstructionArgs,
    (((∀ k ∈ a.segPos.toList ++ a.denPos.toList ++ a.colPos.toList, k < 16) ∧
      (a.segPos.toList ++ a.denPos.toList ++ a.colPos.toList).Nodup ∧
      (∀ p ∈ a.segTable.toList, p < 128) ∧ a.denOn < 2 ∧ a.initFill < 65536) →
        ∃ s, construct a = .next s ∧ accepted s.cfg = true) ∧
    (¬ ((∀ k ∈ a.segPos.toList ++ a.denPos.toList ++ a.colPos.toList, k < 16) ∧
      (a.segPos.toList ++ a.denPos.toList ++ a.colPos.toList).Nodup ∧
      (∀ p ∈ a.segTable.toList, p < 128) ∧ a.denOn < 2 ∧ a.initFill < 65536) →
        construct a = .refused .configInvalid)

/-- The invariant holds at reset. (That State.reset's configuration is an accepted one is a fact of log entry 3.) -/
def Obligations.ResetMeetsTheInvariant : Prop := Inv State.reset

/-- State.reset is a state some construction gives. (Which one is a fact of log entries 3 and 4.) -/
def Obligations.ResetIsAConstruction : Prop := ∃ a : ConstructionArgs, construct a = .next State.reset

/-- The invariant holds of every constructed state, whatever the accepted arguments. -/
def Obligations.ConstructedStatesMeetTheInvariant : Prop :=
  ∀ (a : ConstructionArgs) (s : State), construct a = .next s → Inv s

/-! ### The step -/

/-- R51, R69: a step takes the oldest presented word away and runs what it decodes to; a word that does not decode takes its
decode fault. -/
def Obligations.StepRunsTheDecodedRequest : Prop :=
  ∀ (s : State) (R : Word) (rest : List Word), s.requests = R :: rest →
    (∀ i, decode R = .ok i → step s = exec i (withRequests s rest)) ∧
    (decode R = .error .illegalOp → step s = .next (afterFault (withRequests s rest) 1#3)) ∧
    (decode R = .error .reservedField → step s = .next (afterFault (withRequests s rest) 2#3))

/-- The model's choice (log entry 2): with no request presented a step changes nothing. -/
def Obligations.StepWithoutRequestIsIdle : Prop :=
  ∀ s : State, s.requests = [] → step s = .next s

/-- HEADLINE (invariant). Every step keeps the invariant, from every state that meets it. -/
def Obligations.EveryStepKeepsTheInvariant : Prop :=
  ∀ s t : State, Inv s → step s = .next t → Inv t

/-- R70, R130, R132, R134, R135: every word falls into one class. A word whose class is success completes with its data and
status 0; every other word takes its one fault, which writes RESP and the fault record and nothing else. -/
def Obligations.EveryWordGetsItsStatus : Prop :=
  ∀ (s : State) (R : Word) (rest : List Word), s.requests = R :: rest →
    (expectedStatus R = 0#3 → ∃ data, step s = .next (afterSuccess (withRequests s rest) data)) ∧
    (expectedStatus R ≠ 0#3 → step s = .next (afterFault (withRequests s rest) (expectedStatus R)))

/-- R133, and R24: every request writes all of RESP, and RESP_DATA can be read exactly after a success. -/
def Obligations.EveryRequestWritesTheResponse : Prop :=
  ∀ (s : State) (R : Word) (rest : List Word), s.requests = R :: rest →
    ∃ t, step s = .next t ∧ t.respValid = true ∧
      ((t.respStatus = 0#3 ∧ ∃ data, t.respData = some data ∧ t.readRespData = .next data) ∨
       (t.respStatus ≠ 0#3 ∧ t.respData = none ∧ t.readRespData = .fault .respDataHasNoValue))

/-- A recorded fault stays, with its code; a fault where none was recorded sets FAULTED and FIRST_FAULT, a request without
one leaves both (10_state.md section 3). -/
def Obligations.FaultRecordIsSticky : Prop :=
  ∀ s t : State, step s = .next t →
    (s.faulted = true → t.faulted = true ∧ t.firstFault = s.firstFault) ∧
    (s.faulted = false → s.requests ≠ [] → t.respStatus ≠ 0#3 → t.faulted = true ∧ t.firstFault = t.respStatus) ∧
    (s.faulted = false → s.requests ≠ [] → t.respStatus = 0#3 → t.faulted = false ∧ t.firstFault = s.firstFault)

/-- FRAME of a step: no request writes CFG, and a step takes exactly one word. -/
def Obligations.StepNeverWritesConfiguration : Prop :=
  ∀ s t : State, step s = .next t → t.cfg = s.cfg ∧ t.requests = s.requests.tail

/-- FRAME of all six requests: CFG and the presented words are unchanged; RESP is written; the fault record is unchanged by a
success, and by a fault once a fault is recorded. -/
def Obligations.RequestFrame : Prop :=
  ∀ (i : Instr) (s t : State), exec i s = .next t →
    t.cfg = s.cfg ∧ t.requests = s.requests ∧
    (t.respStatus = 0#3 → t.faulted = s.faulted ∧ t.firstFault = s.firstFault) ∧
    (s.faulted = true → t.faulted = true ∧ t.firstFault = s.firstFault)

/-- R134: which operations raise the value faults, and on what; no operation raises a decode fault or an unused code. -/
def Obligations.ValueFaultsOnlyWhereStated : Prop :=
  ∀ (i : Instr) (s t : State), exec i s = .next t →
    (t.respStatus = 0#3 ∨ t.respStatus = 3#3 ∨ t.respStatus = 4#3 ∨ t.respStatus = 5#3) ∧
    (t.respStatus = 4#3 ↔ ∃ d, i = .encode d ∧ 10 ≤ d) ∧
    (t.respStatus = 3#3 ↔ (∃ pos r, i = .compose none pos r) ∨ ∃ r, i = .frame none r) ∧
    (t.respStatus = 5#3 ↔ ∃ r : Int, (r < 0 ∨ 199 < r) ∧
      (i = .split r ∨ ∃ p, p ≠ Phase.yellow ∧ ((∃ pos, i = .compose (some p) pos r) ∨ i = .frame (some p) r)))

/-- The result of a request depends on CFG and the request alone (10_state.md section 4). -/
def Obligations.ResultDependsOnConfigurationAlone : Prop :=
  ∀ (i : Instr) (s₁ s₂ t₁ t₂ : State), s₁.cfg = s₂.cfg → exec i s₁ = .next t₁ → exec i s₂ = .next t₂ →
    t₁.respStatus = t₂.respStatus ∧ t₁.respData = t₂.respData ∧ t₁.respValid = t₂.respValid

/-- Presenting a request a second time changes nothing at all (20_memory.md section 3). -/
def Obligations.RequestsAreIdempotent : Prop :=
  ∀ (i : Instr) (s t : State), exec i s = .next t → exec i t = .next t

/-- A request answered after any list of earlier requests gets the response it gets alone
(R30, R51). -/
def Obligations.HistoryDoesNotChangeAResponse : Prop :=
  ∀ (s : State) (earlier : List Word) (R : Word),
    ∃ t u, Host.Core.run core (earlier.length + 1) (withRequests s (earlier ++ [R])) = .next t ∧
      Host.Core.run core 1 (withRequests s [R]) = .next u ∧
      t.respValid = u.respValid ∧ t.respStatus = u.respStatus ∧ t.respData = u.respData

/-- Serving any list of words from any state never stops; afterwards no word is left, CFG is as before, RESP_STATUS is
the last word's, FAULTED says whether one of the words (or an earlier one) faulted, and FIRST_FAULT is the code of the first
that did, after a construction 0 while none has (R25). -/
def Obligations.RunRecordsTheFirstFault : Prop :=
  (∀ (a : ConstructionArgs) (s : State), construct a = .next s → s.faulted = false ∧ s.firstFault = 0#3) ∧
  ∀ (Rs : List Word) (s : State), s.requests = Rs →
    ∃ t, Host.Core.run core Rs.length s = .next t ∧ t.requests = [] ∧ t.cfg = s.cfg ∧
      (∀ R, Rs.getLast? = some R → t.respStatus = expectedStatus R) ∧
      t.faulted = (s.faulted || Rs.any fun R => decide (expectedStatus R ≠ 0#3)) ∧
      t.firstFault = bif s.faulted then s.firstFault else firstFaultOf Rs s.firstFault

/-! ### ENCODE -/

/-- ENCODE answers with the pattern of its digit in bits 6:0, for 0..9, and with DIGIT_RANGE for every other digit. -/
def Obligations.EncodeCompletes : Prop :=
  ∀ (s : State) (d : Nat),
    (∀ h : d < 10, exec (.encode d) s = .next (afterSuccess s ((s.cfg.segTable[d]).setWidth 32))) ∧
    (10 ≤ d → exec (.encode d) s = .next (afterFault s 4#3))

/-- R80, from the request word to the state after it. -/
def Obligations.EncodeRequest : Prop :=
  ∀ (s : State) (R : Word) (rest : List Word), s.requests = R :: rest → R.toNat % 16 = 0 →
    (R.toNat / 256 ≠ 0 → step s = .next (afterFault (withRequests s rest) 2#3)) ∧
    (R.toNat / 256 = 0 → ∀ h : R.toNat / 16 < 10, step s =
      .next (afterSuccess (withRequests s rest) ((s.cfg.segTable[R.toNat / 16]).setWidth 32))) ∧
    (R.toNat / 256 = 0 → 10 ≤ R.toNat / 16 → step s = .next (afterFault (withRequests s rest) 4#3))

/-! ### PACK and UNPACK -/

/-- PACK completes for every channel array; channel k of 8..15 goes to byteA bit 15 - k (bit 8 + (15 - k) of RESP_DATA), channel k
of 0..7 to byteB bit 7 - k; the bits above 15 are 0. -/
def Obligations.PackCompletes : Prop :=
  ∀ (s : State) (ch : Channels),
    ∃ data, exec (.pack ch) s = .next (afterSuccess s data) ∧ data.toNat < 65536 ∧
      (∀ k, 8 ≤ k → k ≤ 15 → data.getLsbD (8 + (15 - k)) = ch.getLsbD k) ∧
      (∀ k, k ≤ 7 → data.getLsbD (7 - k) = ch.getLsbD k)

/-- R90, from the request word to the state after it: byteA = rev_8(ch[15:8]), byteB = rev_8(ch[7:0]). -/
def Obligations.PackRequest : Prop :=
  ∀ (s : State) (R : Word) (rest : List Word), s.requests = R :: rest → R.toNat % 16 = 1 →
    (R.toNat / 16 % 4096 ≠ 0 → step s = .next (afterFault (withRequests s rest) 2#3)) ∧
    (R.toNat / 16 % 4096 = 0 → step s = .next (afterSuccess (withRequests s rest)
      (0#16 ++ (R.extractLsb' 24 8).reverse ++ (R.extractLsb' 16 8).reverse)))

/-- UNPACK completes for every pair of bytes; ch[15-i] = a[i], ch[7-i] = b[i]; the bits above 15 are 0. -/
def Obligations.UnpackCompletes : Prop :=
  ∀ (s : State) (a b : Byte),
    ∃ data, exec (.unpack a b) s = .next (afterSuccess s data) ∧ data.toNat < 65536 ∧
      (∀ i, i ≤ 7 → data.getLsbD (15 - i) = a.getLsbD i ∧ data.getLsbD (7 - i) = b.getLsbD i)

/-- R91, from the request word to the state after it. -/
def Obligations.UnpackRequest : Prop :=
  ∀ (s : State) (R : Word) (rest : List Word), s.requests = R :: rest → R.toNat % 16 = 2 →
    (R.toNat / 16 % 4096 ≠ 0 → step s = .next (afterFault (withRequests s rest) 2#3)) ∧
    (R.toNat / 16 % 4096 = 0 → ∃ data, step s = .next (afterSuccess (withRequests s rest) data) ∧ data.toNat < 65536 ∧
      (∀ i, i ≤ 7 → data.getLsbD (15 - i) = R.getLsbD (24 + i) ∧ data.getLsbD (7 - i) = R.getLsbD (16 + i)))

/-- UNPACK undoes PACK and PACK undoes UNPACK, through the response words (41_frame_packer.md). -/
def Obligations.PackAndUnpackAreInverse : Prop :=
  (∀ (s s' : State) (ch : Channels), ∃ data, exec (.pack ch) s = .next (afterSuccess s data) ∧
    exec (.unpack (data.extractLsb' 8 8) (data.extractLsb' 0 8)) s' = .next (afterSuccess s' (ch.setWidth 32))) ∧
  (∀ (s s' : State) (a b : Byte), ∃ data, exec (.unpack a b) s = .next (afterSuccess s data) ∧
    exec (.pack (data.extractLsb' 0 16)) s' = .next (afterSuccess s' (0#16 ++ a ++ b)))

/-- The order of a frame on the wire is ch[15], …, ch[0], and byteB : byteA is the reversed array (20_memory.md section 2). That
byteA is sent first is the spec's own reading (R43; log entry 11). -/
def Obligations.SerialOrderOfAPackedFrame : Prop :=
  ∀ ch : Channels,
    serialStream (packFrame ch) = (List.range 16).map (fun n => ch.getLsbD (15 - n)) ∧
    (packFrame ch).byteB ++ (packFrame ch).byteA = ch.reverse

/-! ### SPLIT -/

/-- R100, R101: SPLIT answers with the two decimal digits of r, or of r - 100 above 99, as BCD nibbles for r in 0..199, and with
DISPLAY_RANGE for every other r. -/
def Obligations.SplitCompletes : Prop :=
  ∀ (s : State) (r : Int),
    (0 ≤ r → r ≤ 99 → exec (.split r) s =
      .next (afterSuccess s (BitVec.ofNat 32 (16 * (r.toNat / 10) + r.toNat % 10)))) ∧
    (100 ≤ r → r ≤ 199 → exec (.split r) s =
      .next (afterSuccess s (BitVec.ofNat 32 (16 * ((r.toNat - 100) / 10) + (r.toNat - 100) % 10)))) ∧
    (r < 0 ∨ 200 ≤ r → exec (.split r) s = .next (afterFault s 5#3))

/-- R102, from the request word to the state after it: as an unsigned number the REM field is in 0..199 exactly when r is. -/
def Obligations.SplitRequest : Prop :=
  ∀ (s : State) (R : Word) (rest : List Word), s.requests = R :: rest → R.toNat % 16 = 3 →
    (R.toNat / 16 % 4096 ≠ 0 → step s = .next (afterFault (withRequests s rest) 2#3)) ∧
    (R.toNat / 16 % 4096 = 0 → R.toNat / 65536 ≤ 199 → step s = .next (afterSuccess (withRequests s rest)
      (BitVec.ofNat 32 (16 * (R.toNat / 65536 % 100 / 10) + R.toNat / 65536 % 10)))) ∧
    (R.toNat / 16 % 4096 = 0 → 200 ≤ R.toNat / 65536 → step s = .next (afterFault (withRequests s rest) 5#3))

/-! ### COMPOSE and FRAME -/

/-- R103 to R106: COMPOSE completes in YELLOW for every r and in RED and GREEN for r in 0..199, and all 16 channels of its frame
are what the rules say. -/
def Obligations.ComposeBuildsTheFrame : Prop :=
  ∀ (s : State) (p : Phase) (pos : DigitPos) (r : Int), accepted s.cfg = true → p = .yellow ∨ (0 ≤ r ∧ r ≤ 199) →
    ∃ data, exec (.compose (some p) pos r) s = .next (afterSuccess s data) ∧ ComposedFrame s.cfg p pos r data

/-- Where COMPOSE and FRAME trap: BAD_PHASE whatever the rest, DISPLAY_RANGE in RED and GREEN outside 0..199. -/
def Obligations.ComposeAndFrameTrap : Prop :=
  ∀ (s : State) (pos : DigitPos) (r : Int),
    exec (.compose none pos r) s = .next (afterFault s 3#3) ∧
    exec (.frame none r) s = .next (afterFault s 3#3) ∧
    (∀ p : Phase, p ≠ .yellow → r < 0 ∨ 199 < r →
      exec (.compose (some p) pos r) s = .next (afterFault s 5#3) ∧
      exec (.frame (some p) r) s = .next (afterFault s 5#3))

/-- R108, from the request word to the state after it, for an accepted configuration. -/
def Obligations.ComposeRequest : Prop :=
  ∀ (s : State) (R : Word) (rest : List Word), accepted s.cfg = true → s.requests = R :: rest → R.toNat % 16 = 4 →
    (R.toNat / 128 % 512 ≠ 0 → step s = .next (afterFault (withRequests s rest) 2#3)) ∧
    (R.toNat / 128 % 512 = 0 → R.toNat / 16 % 4 = 3 → step s = .next (afterFault (withRequests s rest) 3#3)) ∧
    (R.toNat / 128 % 512 = 0 → R.toNat / 16 % 4 ≤ 1 → 200 ≤ R.toNat / 65536 →
      step s = .next (afterFault (withRequests s rest) 5#3)) ∧
    (∀ p, R.toNat / 128 % 512 = 0 → phaseNumbered (R.toNat / 16 % 4) = some p →
      p = .yellow ∨ R.toNat / 65536 ≤ 199 →
        ∃ data, step s = .next (afterSuccess (withRequests s rest) data) ∧
          ComposedFrame s.cfg p (if R.toNat / 64 % 2 = 0 then .p1 else .p2) (signed16 (R.toNat / 65536)) data)

/-- FRAME completes where COMPOSE does, with the COMPOSE frame of P1 in bits 31:16 and that of P2 in bits 15:0, under every
configuration. -/
def Obligations.FrameJoinsBothPositions : Prop :=
  ∀ (s : State) (p : Phase) (r : Int), p = .yellow ∨ (0 ≤ r ∧ r ≤ 199) →
    ∃ d₁ d₂ : Word,
      exec (.compose (some p) .p1 r) s = .next (afterSuccess s d₁) ∧
      exec (.compose (some p) .p2 r) s = .next (afterSuccess s d₂) ∧
      d₁.toNat < 65536 ∧ d₂.toNat < 65536 ∧
      exec (.frame (some p) r) s = .next (afterSuccess s (BitVec.ofNat 32 (65536 * d₁.toNat + d₂.toNat)))

/-- R109, from the request word to the state after it, for an accepted configuration. -/
def Obligations.FrameRequest : Prop :=
  ∀ (s : State) (R : Word) (rest : List Word), accepted s.cfg = true → s.requests = R :: rest → R.toNat % 16 = 5 →
    (R.toNat / 64 % 1024 ≠ 0 → step s = .next (afterFault (withRequests s rest) 2#3)) ∧
    (R.toNat / 64 % 1024 = 0 → R.toNat / 16 % 4 = 3 → step s = .next (afterFault (withRequests s rest) 3#3)) ∧
    (R.toNat / 64 % 1024 = 0 → R.toNat / 16 % 4 ≤ 1 → 200 ≤ R.toNat / 65536 →
      step s = .next (afterFault (withRequests s rest) 5#3)) ∧
    (∀ p, R.toNat / 64 % 1024 = 0 → phaseNumbered (R.toNat / 16 % 4) = some p →
      p = .yellow ∨ R.toNat / 65536 ≤ 199 →
        ∃ d₁ d₂ : Word,
          step s = .next (afterSuccess (withRequests s rest) (BitVec.ofNat 32 (65536 * d₁.toNat + d₂.toNat))) ∧
          ComposedFrame s.cfg p .p1 (signed16 (R.toNat / 65536)) d₁ ∧
          ComposedFrame s.cfg p .p2 (signed16 (R.toNat / 65536)) d₂)

/-- R107: in YELLOW no countdown and no position changes the frame, which shows the colours, both digits disabled, and INIT_FILL
everywhere else; the two halves of FRAME are equal. -/
def Obligations.YellowBlanksTheDisplay : Prop :=
  ∀ s : State, accepted s.cfg = true →
    ∃ data : Word,
      (∀ pos r, exec (.compose (some .yellow) pos r) s = .next (afterSuccess s data)) ∧
      (∀ r, exec (.frame (some .yellow) r) s = .next (afterSuccess s (BitVec.ofNat 32 (65537 * data.toNat)))) ∧
      data.toNat < 65536 ∧
      (∀ k : ChannelPos, channelOf data k =
        if k = s.cfg.colPos[2] then false
        else if k = s.cfg.colPos[0] ∨ k = s.cfg.colPos[1] then true
        else if k = s.cfg.denPos[0] ∨ k = s.cfg.denPos[1] then !s.cfg.denOn
        else s.cfg.initFill.getLsbD k.val)

/-- For r in 0..99, SPLIT, COMPOSE and FRAME answer the same for r and for r + 100, in every phase and position. -/
def Obligations.HundredsAreNotShown : Prop :=
  ∀ (s : State) (ph : Option Phase) (pos : DigitPos) (r : Int), 0 ≤ r → r ≤ 99 →
    exec (.split (r + 100)) s = exec (.split r) s ∧
    exec (.compose ph pos (r + 100)) s = exec (.compose ph pos r) s ∧
    exec (.frame ph (r + 100)) s = exec (.frame ph r) s

/-- In RED and GREEN the two halves of FRAME differ in both digit-enable channels: P1 enables the tens digit and P2 the ones. -/
def Obligations.FrameHalvesEnableOppositeDigits : Prop :=
  ∀ (s : State) (p : Phase) (r : Int), accepted s.cfg = true → p ≠ .yellow → 0 ≤ r → r ≤ 199 →
    ∃ data, exec (.frame (some p) r) s = .next (afterSuccess s data) ∧
      channelOf (data >>> 16) (s.cfg.denPos[0]) = s.cfg.denOn ∧ channelOf data (s.cfg.denPos[0]) = !s.cfg.denOn ∧
      channelOf (data >>> 16) (s.cfg.denPos[1]) = !s.cfg.denOn ∧ channelOf data (s.cfg.denPos[1]) = s.cfg.denOn

/-- In an accepted configuration the order of a composition's writes does not change the array, whatever it starts from. -/
def Obligations.WriteOrderDoesNotMatter : Prop :=
  ∀ (c : Cfg) (p : Phase) (pos : DigitPos) (r : Int) (writes reordered : List (ChannelPos × Bool)) (ch : Channels),
    accepted c = true → composeWrites c p pos r = .ok writes → writes.Perm reordered →
      applyWrites ch reordered = applyWrites ch writes

/-- An accepted configuration has exactly 4 unmapped positions, and no composition writes one. -/
def Obligations.FourPositionsAreUnmapped : Prop :=
  ∀ (c : Cfg), accepted c = true →
    (unmapped c).length = 4 ∧
    ∀ (p : Phase) (pos : DigitPos) (r : Int) (writes : List (ChannelPos × Bool)),
      composeWrites c p pos r = .ok writes → ∀ k ∈ unmapped c, ∀ w ∈ writes, w.1 ≠ k
end

