-- ==== Sys2Proof/Laws/State.lean ====
section
/-! SUPPORT. One lemma per field per update of State, and what the shared outcomes are as plain records. -/

namespace Sys2Proof.Machine

section Respond
variable (s : State) (d : Word)
@[simp] theorem respond_cfg : (s.respond d).cfg = s.cfg := rfl
@[simp] theorem respond_respValid : (s.respond d).respValid = true := rfl
@[simp] theorem respond_respStatus : (s.respond d).respStatus = 0#3 := rfl
@[simp] theorem respond_respData : (s.respond d).respData = some d := rfl
@[simp] theorem respond_faulted : (s.respond d).faulted = s.faulted := rfl
@[simp] theorem respond_firstFault : (s.respond d).firstFault = s.firstFault := rfl
@[simp] theorem respond_requests : (s.respond d).requests = s.requests := rfl
theorem respond_eq_afterSuccess : s.respond d = afterSuccess s d := rfl
end Respond

section Raise
variable (s : State) (f : RequestFault)
@[simp] theorem raise_cfg : (s.raise f).cfg = s.cfg := rfl
@[simp] theorem raise_respValid : (s.raise f).respValid = true := rfl
@[simp] theorem raise_respStatus : (s.raise f).respStatus = faultCode f := rfl
@[simp] theorem raise_respData : (s.raise f).respData = none := rfl
@[simp] theorem raise_faulted : (s.raise f).faulted = true := rfl
@[simp] theorem raise_firstFault : (s.raise f).firstFault = firstFaultAfter s.faulted s.firstFault f := rfl
@[simp] theorem raise_requests : (s.raise f).requests = s.requests := rfl
theorem raise_eq_afterFault : s.raise f = afterFault s (faultCode f) := rfl
end Raise

section AfterSuccess
variable (s : State) (d : Word)
@[simp] theorem afterSuccess_cfg : (afterSuccess s d).cfg = s.cfg := rfl
@[simp] theorem afterSuccess_respValid : (afterSuccess s d).respValid = true := rfl
@[simp] theorem afterSuccess_respStatus : (afterSuccess s d).respStatus = 0#3 := rfl
@[simp] theorem afterSuccess_respData : (afterSuccess s d).respData = some d := rfl
@[simp] theorem afterSuccess_faulted : (afterSuccess s d).faulted = s.faulted := rfl
@[simp] theorem afterSuccess_firstFault : (afterSuccess s d).firstFault = s.firstFault := rfl
@[simp] theorem afterSuccess_requests : (afterSuccess s d).requests = s.requests := rfl
end AfterSuccess

section AfterFault
variable (s : State) (f : StatusCode)
@[simp] theorem afterFault_cfg : (afterFault s f).cfg = s.cfg := rfl
@[simp] theorem afterFault_respValid : (afterFault s f).respValid = true := rfl
@[simp] theorem afterFault_respStatus : (afterFault s f).respStatus = f := rfl
@[simp] theorem afterFault_respData : (afterFault s f).respData = none := rfl
@[simp] theorem afterFault_faulted : (afterFault s f).faulted = true := rfl
@[simp] theorem afterFault_firstFault :
    (afterFault s f).firstFault = bif s.faulted then s.firstFault else f := rfl
@[simp] theorem afterFault_requests : (afterFault s f).requests = s.requests := rfl
end AfterFault

section WithRequests
variable (s : State) (Rs : List Word)
@[simp] theorem withRequests_cfg : (withRequests s Rs).cfg = s.cfg := rfl
@[simp] theorem withRequests_respValid : (withRequests s Rs).respValid = s.respValid := rfl
@[simp] theorem withRequests_respStatus : (withRequests s Rs).respStatus = s.respStatus := rfl
@[simp] theorem withRequests_respData : (withRequests s Rs).respData = s.respData := rfl
@[simp] theorem withRequests_faulted : (withRequests s Rs).faulted = s.faulted := rfl
@[simp] theorem withRequests_firstFault : (withRequests s Rs).firstFault = s.firstFault := rfl
@[simp] theorem withRequests_requests : (withRequests s Rs).requests = Rs := rfl
end WithRequests

theorem withFetchWord_eq (s : State) (nbits w : Nat) :
    s.withFetchWord nbits w = withRequests s (BitVec.ofNat 32 (w % 2 ^ nbits) :: s.requests) := rfl

end Sys2Proof.Machine
end

