-- ==== Sys2Proof/Laws/Ops.lean ====
section
/-! SUPPORT. What each shared operation does, once: bit vectors built bit by bit, channel writes, completing a request, serving a
word, one step. -/

namespace Sys2Proof.Machine

/-! ### Bits and channels -/

theorem getLsbD_bitsFrom (n : Nat) (f : Nat → Bool) (i : Nat) :
    (bitsFrom n f).getLsbD i = (decide (i < n) && f i) := by
  induction n with
  | zero => simp [bitsFrom]
  | succ n ih =>
    rw [bitsFrom, BitVec.getLsbD_cons, ih]
    rcases Nat.lt_trichotomy i n with h | h | h
    · simp [Nat.ne_of_lt h, h, Nat.lt_succ_of_lt h]
    · simp [h]
    · simp [Nat.ne_of_gt h, Nat.not_lt_of_gt h, show ¬ i < n + 1 by omega]

theorem getLsbD_setChannel (ch : Channels) (k : ChannelPos) (b : Bool) (j : ChannelPos) :
    (setChannel ch k b).getLsbD j.val = if j = k then b else ch.getLsbD j.val := by
  by_cases h : j = k
  · subst h; cases b <;> simp [setChannel]
  · have hne' : ¬ j.val = k.val := fun e => h (Fin.ext e)
    cases b <;> simp [setChannel, h, hne']

/-- Two channel arrays that agree on the 16 positions are equal. -/
theorem channels_ext {a b : Channels} (h : ∀ j : ChannelPos, a.getLsbD j.val = b.getLsbD j.val) : a = b :=
  BitVec.eq_of_getLsbD_eq fun i hi => h ⟨i, hi⟩

theorem applyWrites_cons (ch : Channels) (w : ChannelPos × Bool) (ws : List (ChannelPos × Bool)) :
    applyWrites ch (w :: ws) = applyWrites (setChannel ch w.1 w.2) ws := rfl

theorem getLsbD_applyWrites_of_not_mem (ws : List (ChannelPos × Bool)) (ch : Channels) (j : ChannelPos)
    (h : j ∉ ws.map Prod.fst) : (applyWrites ch ws).getLsbD j.val = ch.getLsbD j.val := by
  induction ws generalizing ch with
  | nil => rfl
  | cons w ws ih =>
    simp only [List.map_cons, List.mem_cons, not_or] at h
    rw [applyWrites_cons, ih _ h.2, getLsbD_setChannel, if_neg h.1]

/-- With distinct positions a write is what its position holds afterwards, wherever it stands in the list. -/
theorem getLsbD_applyWrites_of_mem (ws : List (ChannelPos × Bool)) (hnd : (ws.map Prod.fst).Nodup) (ch : Channels)
    (w : ChannelPos × Bool) (h : w ∈ ws) : (applyWrites ch ws).getLsbD w.1.val = w.2 := by
  induction ws generalizing ch with
  | nil => cases h
  | cons v ws ih =>
    simp only [List.map_cons, List.nodup_cons] at hnd
    rw [applyWrites_cons]
    rcases List.mem_cons.1 h with rfl | h
    · rw [getLsbD_applyWrites_of_not_mem _ _ _ hnd.1, getLsbD_setChannel, if_pos rfl]
    · exact ih hnd.2 _ h

/-! ### Completing a request -/

/-- A request always ends in a next state: a success with its data or one fault (R24, R130). -/
theorem complete_cases (res : Except RequestFault Word) (s : State) :
    (∃ d, res = .ok d ∧ complete res s = .next (afterSuccess s d)) ∨
    (∃ f, res = .error f ∧ complete res s = .next (afterFault s (faultCode f))) := by
  cases res with
  | ok d => exact .inl ⟨d, rfl, rfl⟩
  | error f => exact .inr ⟨f, rfl, rfl⟩

@[simp] theorem complete_ok (d : Word) (s : State) : complete (.ok d) s = .next (afterSuccess s d) := rfl

@[simp] theorem complete_error (f : RequestFault) (s : State) :
    complete (.error f) s = .next (afterFault s (faultCode f)) := rfl

/-- Every meaning reads CFG alone (R20, R30). -/
theorem exec_reads_cfg (i : Instr) :
    ∃ result : Cfg → Except RequestFault Word, ∀ s, exec i s = complete (result s.cfg) s := by
  cases i with
  | encode d => exact ⟨fun c => encodeResult c d, fun _ => rfl⟩
  | pack ch => exact ⟨fun _ => .ok ((frameWord (packFrame ch)).setWidth 32), fun _ => rfl⟩
  | unpack a b => exact ⟨fun _ => .ok ((unpackFrame ⟨a, b⟩).setWidth 32), fun _ => rfl⟩
  | split r => exact ⟨fun _ => splitResult r, fun _ => rfl⟩
  | compose ph pos r => exact ⟨fun c => composeResult c ph pos r, fun _ => rfl⟩
  | frame ph r => exact ⟨fun c => frameResult c ph r, fun _ => rfl⟩

/-- Everything a request can do to the state. -/
theorem exec_cases (i : Instr) (s : State) :
    (∃ d, exec i s = .next (afterSuccess s d)) ∨ (∃ f, exec i s = .next (afterFault s (faultCode f))) := by
  obtain ⟨result, h⟩ := exec_reads_cfg i
  rw [h s]
  rcases complete_cases (result s.cfg) s with ⟨d, -, e⟩ | ⟨f, -, e⟩
  · exact .inl ⟨d, e⟩
  · exact .inr ⟨f, e⟩

theorem faultCode_ne_zero (f : RequestFault) : faultCode f ≠ 0#3 := by cases f <;> decide

theorem faultCode_le_five (f : RequestFault) : (faultCode f).toNat ≤ 5 := by cases f <;> decide

/-! ### Serving and stepping -/

theorem serve_of_ok {R : Word} {i : Instr} (h : decode R = .ok i) (s : State) : serve R s = exec i s := by
  simp [serve, h]

theorem serve_of_error {R : Word} {f : RequestFault} (h : decode R = .error f) (s : State) :
    serve R s = .next (afterFault s (faultCode f)) := by
  simp [serve, h, raise_eq_afterFault]

/-- Everything serving a word can do to the state. -/
theorem serve_cases (R : Word) (s : State) :
    (∃ d, serve R s = .next (afterSuccess s d)) ∨ (∃ f, serve R s = .next (afterFault s (faultCode f))) := by
  cases h : decode R with
  | ok i => rw [serve_of_ok h]; exact exec_cases i s
  | error f => exact .inr ⟨f, serve_of_error h s⟩

theorem step_of_nil {s : State} (h : s.requests = []) : step s = .next s := by
  simp only [step, h]

theorem step_of_cons {s : State} {R : Word} {rest : List Word} (h : s.requests = R :: rest) :
    step s = serve R (withRequests s rest) := by
  simp only [step, h]; rfl

/-- Everything a step can do: idle, or one success or one fault of the oldest word. -/
theorem step_cases {s t : State} (h : step s = .next t) :
    (s.requests = [] ∧ t = s) ∨
    (∃ R rest, s.requests = R :: rest ∧
      ((∃ d, t = afterSuccess (withRequests s rest) d) ∨ (∃ f, t = afterFault (withRequests s rest) (faultCode f)))) := by
  cases hr : s.requests with
  | nil => rw [step_of_nil hr] at h; cases h; exact .inl ⟨rfl, rfl⟩
  | cons R rest =>
    rw [step_of_cons hr] at h
    refine .inr ⟨R, rest, rfl, ?_⟩
    rcases serve_cases R (withRequests s rest) with ⟨d, e⟩ | ⟨f, e⟩ <;> rw [e] at h <;> cases h
    · exact .inl ⟨d, rfl⟩
    · exact .inr ⟨f, rfl⟩

/-! ### Runs -/

theorem run_succ_of_step (M : Host.Core) (k : Nat) {s t : M.State} (h : M.step s = .next t) :
    M.run (k + 1) s = M.run k t := by
  rw [Host.Core.run, h]

/-- A run goes on from the state a step answers. -/
theorem run_of_step {s t : State} (h : step s = .next t) (k : Nat) :
    Host.Core.run core (k + 1) s = Host.Core.run core k t :=
  run_succ_of_step core k h

end Sys2Proof.Machine
end

