-- ==== Sys2Proof/Laws/Packer.lean ====
section
/-! SUPPORT. The packer bit by bit: where each channel of a packed frame stands in a response word (R90, R91, R93). -/

namespace Sys2Proof.Machine

theorem getLsbD_frameWord (f : Frame) (i : Nat) :
    (frameWord f).getLsbD i = if i < 8 then f.byteB.getLsbD i else f.byteA.getLsbD (i - 8) := by
  simp only [frameWord, BitVec.getLsbD_append]

theorem getLsbD_packFrame_byteA (ch : Channels) (i : Nat) :
    (packFrame ch).byteA.getLsbD i = (decide (i < 8) && ch.getLsbD (15 - i)) := by
  rw [packFrame, getLsbD_bitsFrom]

theorem getLsbD_packFrame_byteB (ch : Channels) (i : Nat) :
    (packFrame ch).byteB.getLsbD i = (decide (i < 8) && ch.getLsbD (7 - i)) := by
  rw [packFrame, getLsbD_bitsFrom]

theorem getLsbD_unpackFrame (f : Frame) (k : Nat) :
    (unpackFrame f).getLsbD k =
      (decide (k < 16) && if k ≤ 7 then f.byteB.getLsbD (7 - k) else f.byteA.getLsbD (15 - k)) := by
  rw [unpackFrame, getLsbD_bitsFrom]

/-- A frame word in bits 15:0 of a response word, its bits above 15 zero, fits 16 bits. -/
theorem frameWord_fits (f : Frame) : ((frameWord f).setWidth 32).toNat < 65536 := by
  have := (frameWord f).isLt
  simp only [BitVec.toNat_setWidth]; omega

/-- Channel k of a packed array, read back out of the response word (R93). -/
theorem channelOf_packFrame (ch : Channels) (k : ChannelPos) :
    channelOf ((frameWord (packFrame ch)).setWidth 32) k.val = ch.getLsbD k.val := by
  have hk := k.isLt
  unfold channelOf
  split
  · rw [BitVec.getLsbD_setWidth, getLsbD_frameWord, if_pos (by omega), getLsbD_packFrame_byteB,
      show 7 - (7 - k.val) = k.val by omega]
    simp [show 7 - k.val < 32 by omega, show 7 - k.val < 8 by omega]
  · rw [BitVec.getLsbD_setWidth, getLsbD_frameWord, if_neg (by omega), getLsbD_packFrame_byteA,
      show 15 - (23 - k.val - 8) = k.val by omega]
    simp [show 23 - k.val < 32 by omega, show 23 - k.val - 8 < 8 by omega]

end Sys2Proof.Machine
end

