-- ==== Sys2Proof/Laws/Composer.lean ====
section
/-! SUPPORT. Splitting and composing, once: what `splitDigits` answers, which positions a composition writes, and what
`composeFrame` answers. -/

namespace Sys2Proof.Machine

/-! ### Splitting (R100 to R102) -/

/-- A countdown in 0..199 splits into the two digits it shows. -/
theorem splitDigits_of_shown {r : Int} (h0 : 0 ≤ r) (h1 : r ≤ 199) :
    ∃ tens ones : Digit, splitDigits r = .ok (tens, ones) ∧
      tens.val = shownDigit .p1 r ∧ ones.val = shownDigit .p2 r := by
  have h : 0 ≤ displayValue r ∧ displayValue r ≤ 99 := by unfold displayValue; split <;> omega
  refine ⟨⟨(displayValue r).toNat / 10, by omega⟩, ⟨(displayValue r).toNat % 10, by omega⟩, ?_, rfl, rfl⟩
  rw [splitDigits, dif_pos h]

/-- A countdown outside 0..199 does not split (R101). -/
theorem splitDigits_of_not_shown {r : Int} (h : r < 0 ∨ 199 < r) : splitDigits r = .error .displayRange := by
  have hv : ¬ (0 ≤ displayValue r ∧ displayValue r ≤ 99) := by unfold displayValue; split <;> omega
  rw [splitDigits, dif_neg hv]

/-- The display value does not see a hundred (R100). -/
theorem splitDigits_add_hundred {r : Int} (h0 : 0 ≤ r) (h1 : r ≤ 99) : splitDigits (r + 100) = splitDigits r := by
  have h : displayValue (r + 100) = displayValue r := by
    rw [displayValue, displayValue, if_neg (by omega), if_pos h1]; omega
  simp only [splitDigits, h]

/-! ### The positions a composition writes (R22, R23) -/

theorem segPos_mem_positions (c : Cfg) (j : Fin 7) : c.segPos[j] ∈ positions c := by
  simp [positions]

theorem denPos_mem_positions (c : Cfg) (j : Fin 2) : c.denPos[j] ∈ positions c := by
  simp [positions]

theorem colPos_mem_positions (c : Cfg) (j : Fin 3) : c.colPos[j] ∈ positions c := by
  simp [positions]

/-- The writes of RED and GREEN, for the digit `d`. -/
def showWrites (c : Cfg) (p : Phase) (pos : DigitPos) (d : Digit) : List (ChannelPos × Bool) :=
  colourWrites c p ++ digitEnableWrites c pos ++ segmentWrites c (segPattern c d)

/-- The writes of YELLOW. -/
def yellowWrites (c : Cfg) : List (ChannelPos × Bool) := colourWrites c .yellow ++ blankWrites c

/-- Everything the write list of a composition can be. -/
theorem composeWrites_cases {c : Cfg} {p : Phase} {pos : DigitPos} {r : Int} {ws : List (ChannelPos × Bool)}
    (h : composeWrites c p pos r = .ok ws) :
    (p = .yellow ∧ ws = yellowWrites c) ∨ (p ≠ .yellow ∧ ∃ d, ws = showWrites c p pos d) := by
  cases p with
  | yellow => cases h; exact .inl ⟨rfl, rfl⟩
  | red =>
    refine .inr ⟨by decide, ?_⟩
    simp only [composeWrites] at h
    split at h <;> cases h
    exact ⟨_, rfl⟩
  | green =>
    refine .inr ⟨by decide, ?_⟩
    simp only [composeWrites] at h
    split at h <;> cases h
    exact ⟨_, rfl⟩

theorem composeWrites_yellow (c : Cfg) (pos : DigitPos) (r : Int) :
    composeWrites c .yellow pos r = .ok (yellowWrites c) := rfl

/-- In RED and GREEN a countdown in 0..199 gives the writes of the digit shown at the position. -/
theorem composeWrites_of_shown (c : Cfg) {p : Phase} (hp : p ≠ .yellow) (pos : DigitPos) {r : Int} (h0 : 0 ≤ r)
    (h1 : r ≤ 199) : ∃ d : Digit, d.val = shownDigit pos r ∧ composeWrites c p pos r = .ok (showWrites c p pos d) := by
  obtain ⟨tens, ones, hs, ht, ho⟩ := splitDigits_of_shown h0 h1
  refine ⟨if pos = .p1 then tens else ones, ?_, ?_⟩
  · cases pos
    · simpa using ht
    · simpa using ho
  · cases p
    · simp only [composeWrites, hs]; rfl
    · simp only [composeWrites, hs]; rfl
    · exact absurd rfl hp

/-- In RED and GREEN every other countdown is DISPLAY_RANGE. -/
theorem composeWrites_of_not_shown (c : Cfg) {p : Phase} (hp : p ≠ .yellow) (pos : DigitPos) {r : Int}
    (h : r < 0 ∨ 199 < r) : composeWrites c p pos r = .error .displayRange := by
  cases p
  · simp only [composeWrites, splitDigits_of_not_shown h]
  · simp only [composeWrites, splitDigits_of_not_shown h]
  · exact absurd rfl hp

/-! ### Vectors of a fixed length as lists -/

theorem toList_of_seven {α : Type} (v : Vector α 7) : v.toList = [v[0], v[1], v[2], v[3], v[4], v[5], v[6]] := by
  apply List.ext_getElem (by simp)
  intro i h1 h2
  simp only [List.length_cons, List.length_nil] at h2
  interval_cases i <;> simp

theorem toList_of_two {α : Type} (v : Vector α 2) : v.toList = [v[0], v[1]] := by
  apply List.ext_getElem (by simp)
  intro i h1 h2
  simp only [List.length_cons, List.length_nil] at h2
  interval_cases i <;> simp

theorem toList_of_three {α : Type} (v : Vector α 3) : v.toList = [v[0], v[1], v[2]] := by
  apply List.ext_getElem (by simp)
  intro i h1 h2
  simp only [List.length_cons, List.length_nil] at h2
  interval_cases i <;> simp

/-- The 12 positions, written out. -/
theorem positions_eq (c : Cfg) :
    positions c = [c.segPos[0], c.segPos[1], c.segPos[2], c.segPos[3], c.segPos[4], c.segPos[5], c.segPos[6],
      c.denPos[0], c.denPos[1], c.colPos[0], c.colPos[1], c.colPos[2]] := by
  simp [positions, toList_of_seven, toList_of_two, toList_of_three]

/-! ### The positions of a write list are distinct in an accepted configuration (R22, R111) -/

theorem showWrites_positions (c : Cfg) (p : Phase) (pos : DigitPos) (d : Digit) :
    ((showWrites c p pos d).map Prod.fst).Perm (positions c) := by
  have h : (showWrites c p pos d).map Prod.fst =
      [c.colPos[0], c.colPos[1], c.colPos[2]] ++ ([c.denPos[0], c.denPos[1]] ++
        [c.segPos[6], c.segPos[5], c.segPos[4], c.segPos[3], c.segPos[2], c.segPos[1], c.segPos[0]]) := rfl
  have h' : positions c =
      [c.segPos[0], c.segPos[1], c.segPos[2], c.segPos[3], c.segPos[4], c.segPos[5], c.segPos[6]] ++
        ([c.denPos[0], c.denPos[1]] ++ [c.colPos[0], c.colPos[1], c.colPos[2]]) := positions_eq c
  rw [h, h', ← List.append_assoc]
  refine List.perm_append_comm.trans (List.Perm.append ?_ List.perm_append_comm)
  exact List.reverse_perm
    [c.segPos[0], c.segPos[1], c.segPos[2], c.segPos[3], c.segPos[4], c.segPos[5], c.segPos[6]]

theorem showWrites_nodup {c : Cfg} (h : accepted c = true) (p : Phase) (pos : DigitPos) (d : Digit) :
    ((showWrites c p pos d).map Prod.fst).Nodup :=
  (showWrites_positions c p pos d).nodup_iff.2 (by simpa [accepted] using h)

theorem yellowWrites_nodup {c : Cfg} (h : accepted c = true) : ((yellowWrites c).map Prod.fst).Nodup := by
  have hs := showWrites_nodup h .yellow .p1 0
  have he : (showWrites c .yellow .p1 0).map Prod.fst =
      (yellowWrites c).map Prod.fst ++ (segmentWrites c (segPattern c 0)).map Prod.fst := rfl
  rw [he] at hs
  exact (List.nodup_append.1 hs).1

theorem writes_positions_nodup {c : Cfg} (hc : accepted c = true) {p : Phase} {pos : DigitPos} {r : Int}
    {ws : List (ChannelPos × Bool)} (h : composeWrites c p pos r = .ok ws) : (ws.map Prod.fst).Nodup := by
  rcases composeWrites_cases h with ⟨-, rfl⟩ | ⟨-, d, rfl⟩
  · exact yellowWrites_nodup hc
  · exact showWrites_nodup hc _ _ _

/-! ### What a composition answers (R108) -/

theorem composeResult_none (c : Cfg) (pos : DigitPos) (r : Int) : composeResult c none pos r = .error .badPhase := rfl

theorem composeResult_of_writes {c : Cfg} {p : Phase} {pos : DigitPos} {r : Int} {ws : List (ChannelPos × Bool)}
    (h : composeWrites c p pos r = .ok ws) :
    composeResult c (some p) pos r = .ok ((frameWord (packFrame (applyWrites c.initFill ws))).setWidth 32) := by
  simp only [composeResult, composeFrame, h]

theorem composeResult_of_error {c : Cfg} {p : Phase} {pos : DigitPos} {r : Int} {f : RequestFault}
    (h : composeWrites c p pos r = .error f) : composeResult c (some p) pos r = .error f := by
  simp only [composeResult, composeFrame, h]

theorem frameResult_none (c : Cfg) (r : Int) : frameResult c none r = .error .badPhase := rfl

theorem frameResult_of_writes {c : Cfg} {p : Phase} {r : Int} {w₁ w₂ : List (ChannelPos × Bool)}
    (h₁ : composeWrites c p .p1 r = .ok w₁) (h₂ : composeWrites c p .p2 r = .ok w₂) :
    frameResult c (some p) r = .ok (frameWord (packFrame (applyWrites c.initFill w₁)) ++
      frameWord (packFrame (applyWrites c.initFill w₂))) := by
  simp only [frameResult, composeFrame, h₁, h₂]

theorem frameResult_of_error {c : Cfg} {p : Phase} {r : Int} {f : RequestFault}
    (h : composeWrites c p .p1 r = .error f) : frameResult c (some p) r = .error f := by
  simp only [frameResult, composeFrame, h]

end Sys2Proof.Machine
end

