-- ==== Sys2Proof/Laws/Construction.lean ====
section
/-! SUPPORT. What an accepted argument becomes in its CFG register, and that an accepted construction gives distinct positions. -/

namespace Sys2Proof.Machine

theorem toList_narrow {α : Type} {n : Nat} (f : Nat → α) (xs : Vector Nat n) : (narrow f xs).toList = xs.toList.map f := rfl

theorem getElem_narrow {α : Type} {n : Nat} (f : Nat → α) (xs : Vector Nat n) (j : Nat) (h : j < n) :
    (narrow f xs)[j] = f xs[j] := by
  have : (narrow f xs).toList[j]'(by simpa using h) = f xs[j] := by
    simp only [toList_narrow, List.getElem_map, Vector.getElem_toList]
  simpa using this

/-- The legal values of R21 and R22 item 1, as a proposition. -/
theorem argsLegal_iff (a : ConstructionArgs) :
    argsLegal a = true ↔
      (∀ k ∈ argPositions a, k < 16) ∧ (∀ p ∈ a.segTable.toList, p < 128) ∧ a.denOn < 2 ∧ a.initFill < 65536 := by
  simp only [argsLegal, Bool.and_eq_true, List.all_eq_true, decide_eq_true_eq, and_assoc]

theorem argsAccepted_iff (a : ConstructionArgs) :
    argsAccepted a = true ↔
      ((∀ k ∈ argPositions a, k < 16) ∧ (∀ p ∈ a.segTable.toList, p < 128) ∧ a.denOn < 2 ∧ a.initFill < 65536) ∧
        (argPositions a).Nodup := by
  simp only [argsAccepted, Bool.and_eq_true, argsLegal_iff, decide_eq_true_eq]

theorem positions_cfgOfArgs (a : ConstructionArgs) : positions (cfgOfArgs a) = (argPositions a).map (Fin.ofNat 16) := by
  simp [positions, argPositions, cfgOfArgs, toList_narrow]

/-- Accepted arguments give a configuration whose 12 positions are distinct (R22). -/
theorem accepted_cfgOfArgs {a : ConstructionArgs} (h : argsAccepted a = true) : accepted (cfgOfArgs a) = true := by
  obtain ⟨⟨hr, -⟩, hnd⟩ := (argsAccepted_iff a).1 h
  simp only [accepted, decide_eq_true_eq, positions_cfgOfArgs]
  refine hnd.map_on fun x hx y hy e => ?_
  have := congrArg Fin.val e
  simpa [Fin.ofNat, Nat.mod_eq_of_lt (hr x hx), Nat.mod_eq_of_lt (hr y hy)] using this

/-- Everything a construction can answer. -/
theorem construct_cases (a : ConstructionArgs) :
    (argsAccepted a = true ∧ construct a = .next (State.afterConstruction (cfgOfArgs a))) ∨
    (argsAccepted a = false ∧ construct a = .refused .configInvalid) := by
  cases h : argsAccepted a
  · exact .inr ⟨rfl, by simp [construct, h]⟩
  · exact .inl ⟨rfl, by simp [construct, h]⟩

end Sys2Proof.Machine
end

