-- ==== Sys2Proof/Laws/Decode.lean ====
section
/-! SUPPORT. The fields of a request word in arithmetic, the decoder's answer operation by operation, and the fields of an encoded
word. -/

namespace Sys2Proof.Machine

/-! ### Fields in arithmetic (R68) -/

theorem opField_toNat (R : Word) : (opField R).toNat = R.toNat % 16 := by
  simp [opField, BitVec.extractLsb'_toNat]

theorem digitOperand_eq (R : Word) : digitOperand R = R.toNat / 16 % 16 := by
  simp [digitOperand, BitVec.extractLsb'_toNat, Nat.shiftRight_eq_div_pow]

theorem channelsOperand_eq (R : Word) : channelsOperand R = BitVec.ofNat 16 (R.toNat / 65536) :=
  BitVec.eq_of_toNat_eq (by simp [channelsOperand, BitVec.extractLsb'_toNat, Nat.shiftRight_eq_div_pow])

theorem byteAOperand_eq (R : Word) : byteAOperand R = BitVec.ofNat 8 (R.toNat / 16777216) :=
  BitVec.eq_of_toNat_eq (by simp [byteAOperand, BitVec.extractLsb'_toNat, Nat.shiftRight_eq_div_pow])

theorem byteBOperand_eq (R : Word) : byteBOperand R = BitVec.ofNat 8 (R.toNat / 65536 % 256) :=
  BitVec.eq_of_toNat_eq (by simp [byteBOperand, BitVec.extractLsb'_toNat, Nat.shiftRight_eq_div_pow])

theorem remainingOperand_eq (R : Word) : remainingOperand R = signed16 (R.toNat / 65536) := by
  have hR := R.isLt
  have h : (R.extractLsb' 16 16).toNat = R.toNat / 65536 := by
    simp only [BitVec.extractLsb'_toNat, Nat.shiftRight_eq_div_pow]; omega
  simp only [remainingOperand, BitVec.toInt_eq_toNat_cond, h, signed16]
  split <;> split <;> omega

theorem phaseOfField_eq (f : BitVec 2) : phaseOfField f = phaseNumbered f.toNat := by
  revert f; decide

theorem phaseOperand_eq (R : Word) : phaseOperand R = phaseNumbered (R.toNat / 16 % 4) := by
  simp [phaseOperand, phaseOfField_eq, BitVec.extractLsb'_toNat, Nat.shiftRight_eq_div_pow]

theorem posOperand_eq (R : Word) : posOperand R = if R.toNat / 64 % 2 = 0 then .p1 else .p2 := by
  have h : R.getLsbD 6 = decide (R.toNat / 64 % 2 = 1) := by
    simp only [BitVec.getLsbD, Nat.testBit_eq_decide_div_mod_eq]
  rw [posOperand, h]
  rcases Nat.mod_two_eq_zero_or_one (R.toNat / 64) with e | e <;> rw [e] <;> rfl

/-- A field is all zeros, in arithmetic. -/
theorem extract_eq_zero_iff (R : Word) (lo len : Nat) :
    R.extractLsb' lo len = 0#len ↔ R.toNat / 2 ^ lo % 2 ^ len = 0 := by
  rw [← BitVec.toNat_inj, BitVec.extractLsb'_toNat, Nat.shiftRight_eq_div_pow]; simp

/-- The must-be-zero check, in arithmetic (R62 to R66). -/
theorem mustBeZeroClear_iff (op : Op) (R : Word) :
    mustBeZeroClear op R = true ↔
      match op with
      | .encode => R.toNat / 256 = 0
      | .compose => R.toNat / 128 % 512 = 0
      | .frame => R.toNat / 64 % 1024 = 0
      | _ => R.toNat / 16 % 4096 = 0 := by
  have hR := R.isLt
  cases op <;> simp only [mustBeZeroClear, decide_eq_true_eq, extract_eq_zero_iff] <;> omega

/-! ### Decoding, operation by operation (R69) -/

theorem opOfField_opField (R : Word) : opOfField (opField R) = opNumbered (R.toNat % 16) := by
  rw [opOfField, opField_toNat]

/-- Decoding a word whose OP field names an operation. -/
theorem decode_of_op {R : Word} {op : Op} (h : opNumbered (R.toNat % 16) = some op) :
    decode R = if mustBeZeroClear op R = true then .ok (assemble op R) else .error .reservedField := by
  simp only [decode, opOfField_opField, h]

theorem opNumbered_of_six_le {n : Nat} (h : 6 ≤ n) : opNumbered n = none := by
  unfold opNumbered; split <;> first | omega | rfl

/-- The number of an operation is the one R61 gives it. -/
theorem eq_of_opNumbered {n : Nat} {op : Op} (h : opNumbered n = some op) :
    n = match op with | .encode => 0 | .pack => 1 | .unpack => 2 | .split => 3 | .compose => 4 | .frame => 5 := by
  unfold opNumbered at h; split at h <;> cases h <;> rfl

/-- Decoding a word whose OP field names none. -/
theorem decode_illegal {R : Word} (h : 6 ≤ R.toNat % 16) : decode R = .error .illegalOp := by
  simp only [decode, opOfField_opField, opNumbered_of_six_le h]

/-- Everything decoding a word can answer. -/
theorem decode_cases (R : Word) :
    (decode R = .error .illegalOp ∧ opNumbered (R.toNat % 16) = none) ∨
    ∃ op, opNumbered (R.toNat % 16) = some op ∧
      ((decode R = .error .reservedField ∧ mustBeZeroClear op R = false) ∨
       (decode R = .ok (assemble op R) ∧ mustBeZeroClear op R = true)) := by
  cases h : opNumbered (R.toNat % 16) with
  | none => exact .inl ⟨by simp only [decode, opOfField_opField, h], rfl⟩
  | some op =>
    refine .inr ⟨op, rfl, ?_⟩
    rw [decode_of_op h]
    cases hm : mustBeZeroClear op R <;> simp

/-! ### The operands fit the encoding -/

theorem signed16_range {n : Nat} (h : n < 65536) : -32768 ≤ signed16 n ∧ signed16 n ≤ 32767 := by
  unfold signed16; split <;> omega

end Sys2Proof.Machine
end

