-- ==== Sys2Proof/Laws/PerInstr.lean ====
section
/-! SUPPORT. The per-instruction families of LAWS.json. `RowMatch`: the word of every request satisfies the mask and match of its
row of opcode_table.json. -/

namespace Sys2Proof.Laws.RowMatch

/-- The mask and the match of the row of opcode_table.json a constructor stands for. -/
def row : Instr → Word × Word
  | .encode _ => (0xFFFFFF0F#32, 0x00000000#32)
  | .pack _ => (0x0000FFFF#32, 0x00000001#32)
  | .unpack _ _ => (0x0000FFFF#32, 0x00000002#32)
  | .split _ => (0x0000FFFF#32, 0x00000003#32)
  | .compose _ _ _ => (0x0000FF8F#32, 0x00000004#32)
  | .frame _ _ => (0x0000FFCF#32, 0x00000005#32)

def Statement (i : Instr) : Prop := Sys2Proof.encode i &&& (row i).1 = (row i).2

/-- A row's match is what a word leaves under the row's mask, said bit by bit. -/
theorem statement_of_bits {i : Instr}
    (h : ∀ k < 32, ((Sys2Proof.encode i).getLsbD k && (row i).1.getLsbD k) = (row i).2.getLsbD k) : Statement i :=
  BitVec.eq_of_getLsbD_eq fun k hk => by rw [BitVec.getLsbD_and]; exact h k hk

theorem encode (digit : Nat) : Statement (.encode digit) :=
  statement_of_bits fun k hk => by
    simp only [Sys2Proof.encode, opNumber, row, BitVec.getLsbD_append]
    interval_cases k <;> simp

theorem pack (ch : Channels) : Statement (.pack ch) :=
  statement_of_bits fun k hk => by
    simp only [Sys2Proof.encode, opNumber, row, BitVec.getLsbD_append]
    interval_cases k <;> simp

theorem unpack (byteA byteB : Byte) : Statement (.unpack byteA byteB) :=
  statement_of_bits fun k hk => by
    simp only [Sys2Proof.encode, opNumber, row, BitVec.getLsbD_append]
    interval_cases k <;> simp

theorem split (remaining : Int) : Statement (.split remaining) :=
  statement_of_bits fun k hk => by
    simp only [Sys2Proof.encode, opNumber, row, BitVec.getLsbD_append]
    interval_cases k <;> simp

theorem compose (phase : Option Phase) (pos : DigitPos) (remaining : Int) : Statement (.compose phase pos remaining) :=
  statement_of_bits fun k hk => by
    simp only [Sys2Proof.encode, opNumber, row, BitVec.getLsbD_append]
    interval_cases k <;> simp

theorem frame (phase : Option Phase) (remaining : Int) : Statement (.frame phase remaining) :=
  statement_of_bits fun k hk => by
    simp only [Sys2Proof.encode, opNumber, row, BitVec.getLsbD_append]
    interval_cases k <;> simp

end Sys2Proof.Laws.RowMatch
end

