-- ==== Sys2Proof/Tests/Slice0.lean ====
section
/-! SUPPORT. The session's own tests: the WellFormed smoke test, words written out from the formats R62 to R66, single steps whose
expected results are the vectors of 95_test_vectors.md (sections 3.1 to 3.7), and one witness for every statement that has
hypotheses. -/

namespace Sys2Proof.Tests

open Machine

/-! ### Small states -/

/-- REF of 95_test_vectors.md, as construction arguments. -/
def refArgs : ConstructionArgs where
  segPos := #v[0, 1, 2, 3, 4, 5, 6]
  denPos := #v[7, 8]
  colPos := #v[9, 10, 11]
  segTable := #v[0x40, 0x79, 0x24, 0x30, 0x19, 0x12, 0x02, 0x78, 0x00, 0x10]
  denOn := 0
  initFill := 0xFFFF

/-- REF2 of 95_test_vectors.md. -/
def ref2Args : ConstructionArgs where
  segPos := #v[15, 14, 13, 12, 11, 10, 9]
  denPos := #v[3, 2]
  colPos := #v[0, 1, 4]
  segTable := refArgs.segTable
  denOn := 1
  initFill := 0

/-- The state after constructing `a` with the words `Rs` presented. -/
def presented (a : ConstructionArgs) (Rs : List Word) : State :=
  withRequests (State.afterConstruction (cfgOfArgs a)) Rs

/-- RESP_STATUS and RESP_DATA after one step. -/
def answer (s : State) : Option (StatusCode × Option Word) :=
  match step s with
  | .next t => some (t.respStatus, t.respData)
  | .fault _ => none
  | .refused _ => none

/-- FAULTED and FIRST_FAULT after one step. -/
def record (s : State) : Option (Bool × StatusCode) :=
  match step s with
  | .next t => some (t.faulted, t.firstFault)
  | .fault _ => none
  | .refused _ => none

/-! ### WellFormed refuses each kind of ill-formed operand -/

theorem test_wellFormed_digit : (Instr.encode 15).wellFormed = true ∧ (Instr.encode 16).wellFormed = false := by decide

theorem test_wellFormed_split_high :
    (Instr.split 32767).wellFormed = true ∧ (Instr.split 32768).wellFormed = false := by decide

theorem test_wellFormed_split_low :
    (Instr.split (-32768)).wellFormed = true ∧ (Instr.split (-32769)).wellFormed = false := by decide

theorem test_wellFormed_compose :
    (Instr.compose none .p1 5).wellFormed = true ∧ (Instr.compose none .p1 40000).wellFormed = false := by decide

theorem test_wellFormed_frame :
    (Instr.frame (some .red) 5).wellFormed = true ∧ (Instr.frame (some .red) (-40000)).wellFormed = false := by decide

/-! ### Words written out bit by bit from R62 to R66 -/

theorem test_decode_encode : decode 0b00000000000000000000000010010000#32 = .ok (.encode 9) := by decide
theorem test_decode_pack : decode 0b10100101110000110000000000000001#32 = .ok (.pack 0xA5C3#16) := by decide
theorem test_decode_unpack : decode 0b10111111100000000000000000000010#32 = .ok (.unpack 0xBF#8 0x80#8) := by decide
theorem test_decode_split : decode 0b11111111100111000000000000000011#32 = .ok (.split (-100)) := by decide
theorem test_decode_compose :
    decode 0b00000000000000110000000001100100#32 = .ok (.compose (some .yellow) .p2 3) := by decide
theorem test_decode_frame : decode 0b00000000000101010000000000010101#32 = .ok (.frame (some .green) 21) := by decide
theorem test_encode_compose :
    encode (.compose (some .green) .p2 21) = 0x00150054#32 ∧ encode (.compose none .p1 200) = 0x00C80034#32 := by decide
theorem test_encode_split : encode (.split (-1)) = 0xFFFF0003#32 ∧ encode (.unpack 0x48#8 0x2C#8) = 0x482C0002#32 := by
  decide
/-- Section 3.7. -/
theorem test_decode_rejects :
    decode 0x00000006#32 = .error .illegalOp ∧ decode 0xFFFFFFFF#32 = .error .illegalOp ∧
    decode 0xFFFFFFF0#32 = .error .reservedField ∧ decode 0x0000FFF1#32 = .error .reservedField ∧
    decode 0x00150084#32 = .error .reservedField ∧ decode 0x00150045#32 = .error .reservedField := by decide
theorem test_decodeTableWord :
    decodeTableWord 32 0x00690005 = some (.frame (some .red) 105) ∧ decodeTableWord 8 0x70 = some (.encode 7) ∧
    decodeTableWord 32 0x6 = none ∧ decodeTableWord 40 0x100000070 = none := by decide

/-! ### One step against the vectors -/

/-- Section 3.1: ENCODE 7 and ENCODE 10. -/
theorem test_encode_seven : answer (presented refArgs [0x00000070#32]) = some (0#3, some 0x78#32) := by decide
theorem test_encode_ten : answer (presented refArgs [0x000000A0#32]) = some (4#3, none) := by decide
/-- Section 3.2. -/
theorem test_pack_1234 : answer (presented refArgs [0x12340001#32]) = some (0#3, some 0x0000482C#32) := by decide
theorem test_pack_channel15 : answer (presented ref2Args [0x80000001#32]) = some (0#3, some 0x00000100#32) := by decide
/-- Section 3.3. -/
theorem test_unpack_482C : answer (presented refArgs [0x482C0002#32]) = some (0#3, some 0x00001234#32) := by decide
theorem test_unpack_BF80 : answer (presented refArgs [0xBF800002#32]) = some (0#3, some 0x0000FD01#32) := by decide
/-- Section 3.4. -/
theorem test_split_137 : answer (presented refArgs [0x00890003#32]) = some (0#3, some 0x37#32) := by decide
theorem test_split_200 : answer (presented refArgs [0x00C80003#32]) = some (5#3, none) := by decide
/-- Section 3.5, under REF and under REF2. -/
theorem test_compose_red_137 : answer (presented refArgs [0x00890044#32]) = some (0#3, some 0x00003FF1#32) := by decide
theorem test_compose_green_7_ref2 : answer (presented ref2Args [0x00070054#32]) = some (0#3, some 0x00000FA8#32) := by
  decide
/-- Section 3.6. -/
theorem test_frame_red_105 : answer (presented refArgs [0x00690005#32]) = some (0#3, some 0xBF803F25#32) := by decide
theorem test_frame_green_58_ref2 : answer (presented ref2Args [0x003A0015#32]) = some (0#3, some 0x249800A8#32) := by
  decide
/-- Section 3.5: BAD_PHASE wins over DISPLAY_RANGE (R135); YELLOW reads no countdown (R107). -/
theorem test_priority : answer (presented refArgs [0x00C80034#32]) = some (3#3, none) := by decide
theorem test_yellow : answer (presented refArgs [0x80000064#32]) = some (0#3, some 0x0000EFFF#32) := by decide
/-- Program P3 of section 4: its second and third requests, each one step from the state its table gives before it. -/
theorem test_fault_record_stays :
    record (withRequests (afterFault (presented refArgs []) 4#3) [0xFFFF0001#32]) = some (true, 4#3) ∧
    record (withRequests (afterFault (presented refArgs []) 4#3) [0x00000007#32]) = some (true, 4#3) := by decide
/-- R44: ch[15] first, ch[0] last, for ch = 0x1234. -/
theorem test_serialStream :
    serialStream (packFrame 0x1234#16) =
      [false, false, false, true, false, false, true, false, false, false, true, true, false, true, false, false] := by
  decide
/-- R23 under REF and REF2. -/
theorem test_unmapped :
    unmapped (cfgOfArgs refArgs) = [12, 13, 14, 15] ∧ unmapped (cfgOfArgs ref2Args) = [5, 6, 7, 8] := by decide
/-- R131: CONFIG_INVALID is code 6. -/
theorem test_configInvalidCode : configInvalidCode = 6#3 := rfl
/-- R24, R32. -/
theorem test_readRespData_reset : State.reset.readRespData = .fault .respDataHasNoValue := rfl
theorem test_withFetchWord : (State.reset.withFetchWord 32 0x00690005).requests = [0x00690005#32] := by decide

/-! ### Witnesses: the hypotheses of each statement, met together -/

theorem witness_DecodeFollowsTheFormats :
    6 ≤ (0x00000006#32).toNat % 16 ∧ (0x00000100#32).toNat % 16 = 0 ∧ (0xFFFF0001#32).toNat % 16 = 1 ∧
    (0xFFFF0012#32).toNat % 16 = 2 ∧ (0x80000003#32).toNat % 16 = 3 ∧ (0x00000084#32).toNat % 16 = 4 ∧
    (0x00000045#32).toNat % 16 = 5 := by decide

/-- The first and the last OP of each of the two clauses on OP. -/
theorem witness_DecodeAgreesWithOpcodeTable :
    6 ≤ (0x00000006#32).toNat % 16 ∧ (0x00000005#32).toNat % 16 ≤ 5 ∧ 0x00690005#32 &&& 0x0000FFCF#32 = 0x00000005#32 := by
  decide

theorem witness_DecodeOfEncodeIsTheRequest :
    (Instr.encode 15).wellFormed = true ∧ (Instr.split (-32768)).wellFormed = true ∧
    (Instr.frame none 32767).wellFormed = true := by decide

theorem witness_EncodeOfDecodedIsTheWord : decode 0x7FFF0074#32 = .ok (.compose none .p2 32767) := by decide

theorem witness_ConstructionSetsEveryField : argsAccepted refArgs = true ∧ argsAccepted ref2Args = true := by decide

/-- Clause 1 at the last legal values, clause 2 at the first illegal value of each field and at an equal pair of positions. -/
theorem witness_ConstructionRefusesExactlyBadArguments :
    construct { ref2Args with segTable := Vector.replicate 10 127, initFill := 65535 } ≠ .refused .configInvalid ∧
    construct { refArgs with denPos := #v[7, 16] } = .refused .configInvalid ∧
    construct { refArgs with denPos := #v[7, 7] } = .refused .configInvalid ∧
    construct { refArgs with segTable := Vector.replicate 10 128 } = .refused .configInvalid ∧
    construct { refArgs with denOn := 2 } = .refused .configInvalid ∧
    construct { refArgs with initFill := 65536 } = .refused .configInvalid := by
  refine ⟨fun h => ?_, rfl, rfl, rfl, rfl, rfl⟩
  cases h

theorem witness_ConstructedStatesMeetTheInvariant :
    construct refArgs = .next (State.afterConstruction (cfgOfArgs refArgs)) := rfl

theorem witness_StepRunsTheDecodedRequest :
    (presented refArgs [0x00000070#32]).requests = [0x00000070#32] ∧ decode 0x00000070#32 = .ok (.encode 7) ∧
    decode 0x00000006#32 = .error .illegalOp ∧ decode 0x00000170#32 = .error .reservedField := by decide

theorem witness_StepWithoutRequestIsIdle : State.reset.requests = [] := rfl

theorem witness_EveryStepKeepsTheInvariant :
    Inv (presented refArgs [0x00000006#32]) ∧
    step (presented refArgs [0x00000006#32]) = .next (afterFault (presented refArgs []) 1#3) := by
  refine ⟨⟨?_, ?_, ?_, ?_, ?_, ?_, ?_⟩, rfl⟩ <;> decide

/-- The last word of each kind that succeeds, and the first word of each kind that faults. -/
theorem witness_EveryWordGetsItsStatus :
    (presented refArgs [0x00C70044#32]).requests = [0x00C70044#32] ∧ expectedStatus 0x00C70044#32 = 0#3 ∧
    expectedStatus 0x00000090#32 = 0#3 ∧ expectedStatus 0x00C70003#32 = 0#3 ∧ expectedStatus 0x80000025#32 = 0#3 ∧
    expectedStatus 0x00000006#32 = 1#3 ∧ expectedStatus 0x00000100#32 = 2#3 ∧ expectedStatus 0x00C80034#32 = 3#3 ∧
    expectedStatus 0x000000A0#32 = 4#3 ∧ expectedStatus 0x00C80003#32 = 5#3 := by decide

theorem witness_EveryRequestWritesTheResponse :
    (presented refArgs [0x00000070#32, 0x6#32]).requests = [0x00000070#32, 0x6#32] := rfl

/-- One state and step for each of the three clauses. -/
theorem witness_FaultRecordIsSticky :
    (afterFault (presented refArgs [0x6#32]) 4#3).faulted = true ∧
    answer (afterFault (presented refArgs [0x6#32]) 4#3) = some (1#3, none) ∧
    (presented refArgs [0x6#32]).faulted = false ∧ (presented refArgs [0x6#32]).requests ≠ [] ∧
    answer (presented refArgs [0x6#32]) = some (1#3, none) ∧
    answer (presented refArgs [0x00000070#32]) = some (0#3, some 0x78#32) := by decide

theorem witness_StepNeverWritesConfiguration :
    step (presented refArgs [0x6#32]) = .next (afterFault (presented refArgs []) 1#3) := rfl

/-- A success and a fault, each on a state with and without a recorded fault. -/
theorem witness_RequestFrame :
    exec (.encode 10) (presented refArgs []) = .next (afterFault (presented refArgs []) 4#3) ∧
    exec (.split 5) (afterFault (presented refArgs []) 4#3) =
      .next (afterSuccess (afterFault (presented refArgs []) 4#3) 5#32) := ⟨rfl, rfl⟩

/-- Each status an operation can answer with. -/
theorem witness_ValueFaultsOnlyWhereStated :
    exec (.split 0) State.reset = .next (afterSuccess State.reset 0#32) ∧
    exec (.frame none 0) State.reset = .next (afterFault State.reset 3#3) ∧
    exec (.encode 10) State.reset = .next (afterFault State.reset 4#3) ∧
    exec (.compose (some .red) .p1 200) State.reset = .next (afterFault State.reset 5#3) := ⟨rfl, rfl, rfl, rfl⟩

theorem witness_ResultDependsOnConfigurationAlone :
    (afterFault State.reset 4#3).cfg = State.reset.cfg ∧
    exec (.split 21) (afterFault State.reset 4#3) = .next (afterSuccess (afterFault State.reset 4#3) 0x21#32) ∧
    exec (.split 21) State.reset = .next (afterSuccess State.reset 0x21#32) := ⟨rfl, rfl, rfl⟩

theorem witness_RequestsAreIdempotent :
    exec (.encode 15) State.reset = .next (afterFault State.reset 4#3) := rfl

theorem witness_RunRecordsTheFirstFault :
    construct refArgs = .next (presented refArgs []) ∧
    (presented refArgs [0x000000A0#32, 0xFFFF0001#32, 0x00000007#32]).requests =
      [0x000000A0#32, 0xFFFF0001#32, 0x00000007#32] := ⟨rfl, rfl⟩

theorem witness_EncodeCompletes : (9 : Nat) < 10 ∧ 10 ≤ (10 : Nat) := by decide

/-- The three clauses at their boundary words, as the three that follow for SPLIT, COMPOSE and FRAME. -/
theorem witness_EncodeRequest :
    (presented refArgs [0x00000100#32]).requests = [0x00000100#32] ∧
    (0x00000100#32).toNat % 16 = 0 ∧ (0x00000100#32).toNat / 256 ≠ 0 ∧
    (0x00000090#32).toNat % 16 = 0 ∧ (0x00000090#32).toNat / 256 = 0 ∧ (0x00000090#32).toNat / 16 < 10 ∧
    (0x000000A0#32).toNat % 16 = 0 ∧ (0x000000A0#32).toNat / 256 = 0 ∧ 10 ≤ (0x000000A0#32).toNat / 16 := by decide

theorem witness_PackRequest :
    (presented refArgs [0xFFFF0011#32]).requests = [0xFFFF0011#32] ∧ (0xFFFF0011#32).toNat % 16 = 1 ∧
    (0xFFFF0011#32).toNat / 16 % 4096 ≠ 0 ∧ (0xFFFF0001#32).toNat % 16 = 1 ∧
    (0xFFFF0001#32).toNat / 16 % 4096 = 0 := by decide

theorem witness_PackCompletes : 8 ≤ (8 : Nat) ∧ (15 : Nat) ≤ 15 ∧ (7 : Nat) ≤ 7 := by decide

theorem witness_UnpackCompletes : (7 : Nat) ≤ 7 := by decide

theorem witness_UnpackRequest :
    (presented refArgs [0x482C8002#32]).requests = [0x482C8002#32] ∧ (0x482C8002#32).toNat % 16 = 2 ∧
    (0x482C8002#32).toNat / 16 % 4096 ≠ 0 ∧ (0x482C0002#32).toNat % 16 = 2 ∧
    (0x482C0002#32).toNat / 16 % 4096 = 0 := by decide

theorem witness_SplitCompletes :
    (0 : Int) ≤ 0 ∧ (99 : Int) ≤ 99 ∧ (100 : Int) ≤ 100 ∧ (199 : Int) ≤ 199 ∧ (-1 : Int) < 0 ∧ (200 : Int) ≤ 200 := by
  decide

theorem witness_SplitRequest :
    (presented refArgs [0x00C70003#32]).requests = [0x00C70003#32] ∧
    (0x00C70003#32).toNat % 16 = 3 ∧ (0x00C70003#32).toNat / 16 % 4096 = 0 ∧ (0x00C70003#32).toNat / 65536 ≤ 199 ∧
    (0x00C80003#32).toNat % 16 = 3 ∧ (0x00C80003#32).toNat / 16 % 4096 = 0 ∧ 200 ≤ (0x00C80003#32).toNat / 65536 ∧
    (0x00C70013#32).toNat % 16 = 3 ∧ (0x00C70013#32).toNat / 16 % 4096 ≠ 0 := by decide

theorem witness_ComposeBuildsTheFrame :
    accepted State.reset.cfg = true ∧ (Phase.red = .yellow ∨ (0 ≤ (199 : Int) ∧ (199 : Int) ≤ 199)) ∧
    (Phase.yellow = .yellow ∨ (0 ≤ (-1 : Int) ∧ (-1 : Int) ≤ 199)) := by decide

theorem witness_ComposeAndFrameTrap :
    Phase.green ≠ .yellow ∧ ((-1 : Int) < 0 ∨ 199 < (-1 : Int)) ∧ ((200 : Int) < 0 ∨ 199 < (200 : Int)) := by decide

theorem witness_ComposeRequest :
    accepted (presented ref2Args [0x00150084#32]).cfg = true ∧
    (presented ref2Args [0x00150084#32]).requests = [0x00150084#32] ∧
    (0x00150084#32).toNat % 16 = 4 ∧ (0x00150084#32).toNat / 128 % 512 ≠ 0 ∧
    (0x00C80034#32).toNat % 16 = 4 ∧ (0x00C80034#32).toNat / 128 % 512 = 0 ∧ (0x00C80034#32).toNat / 16 % 4 = 3 ∧
    (0x00C80054#32).toNat % 16 = 4 ∧ (0x00C80054#32).toNat / 128 % 512 = 0 ∧ (0x00C80054#32).toNat / 16 % 4 ≤ 1 ∧
    200 ≤ (0x00C80054#32).toNat / 65536 ∧
    (0x00C70054#32).toNat % 16 = 4 ∧ (0x00C70054#32).toNat / 128 % 512 = 0 ∧
    phaseNumbered ((0x00C70054#32).toNat / 16 % 4) = some .green ∧ (0x00C70054#32).toNat / 65536 ≤ 199 := by decide

theorem witness_FrameRequest :
    accepted (presented refArgs [0x00150045#32]).cfg = true ∧
    (presented refArgs [0x00150045#32]).requests = [0x00150045#32] ∧
    (0x00150045#32).toNat % 16 = 5 ∧ (0x00150045#32).toNat / 64 % 1024 ≠ 0 ∧
    (0x00000035#32).toNat % 16 = 5 ∧ (0x00000035#32).toNat / 64 % 1024 = 0 ∧ (0x00000035#32).toNat / 16 % 4 = 3 ∧
    (0x00C80015#32).toNat % 16 = 5 ∧ (0x00C80015#32).toNat / 64 % 1024 = 0 ∧ (0x00C80015#32).toNat / 16 % 4 ≤ 1 ∧
    200 ≤ (0x00C80015#32).toNat / 65536 ∧
    (0x80000025#32).toNat % 16 = 5 ∧ (0x80000025#32).toNat / 64 % 1024 = 0 ∧
    phaseNumbered ((0x80000025#32).toNat / 16 % 4) = some .yellow := by decide

theorem witness_FrameJoinsBothPositions : Phase.red = .yellow ∨ (0 ≤ (0 : Int) ∧ (0 : Int) ≤ 199) := by decide

theorem witness_YellowBlanksTheDisplay : accepted (cfgOfArgs ref2Args) = true := by decide

theorem witness_HundredsAreNotShown : (0 : Int) ≤ 99 ∧ (99 : Int) ≤ 99 := by decide

theorem witness_FrameHalvesEnableOppositeDigits :
    accepted State.reset.cfg = true ∧ Phase.red ≠ .yellow ∧ (0 : Int) ≤ 199 ∧ (199 : Int) ≤ 199 := by decide

theorem witness_WriteOrderDoesNotMatter :
    accepted State.reset.cfg = true ∧
    composeWrites State.reset.cfg .yellow .p1 (-5) =
      .ok [(9, true), (10, true), (11, false), (7, true), (8, true)] ∧
    [((9 : ChannelPos), true), (10, true), (11, false), (7, true), (8, true)].Perm
      [(10, true), (9, true), (11, false), (7, true), (8, true)] :=
  ⟨by decide, rfl, List.Perm.swap ..⟩

theorem witness_FourPositionsAreUnmapped :
    accepted State.reset.cfg = true ∧ (12 : ChannelPos) ∈ unmapped State.reset.cfg ∧
    composeWrites State.reset.cfg .yellow .p1 (-5) =
      .ok [(9, true), (10, true), (11, false), (7, true), (8, true)] :=
  ⟨by decide, by decide, rfl⟩

end Sys2Proof.Tests
end

section
/-! PROOF. The status every request word gets: the class of a decoded request, the outcome of its meaning, and the agreement of
both with the arithmetic of `expectedStatus` (R131, R134, R135). -/

namespace Sys2Proof.Machine

/-- The outcome `o` of a request taken in state `s` has status `c`: a success with some data for 0, and otherwise exactly the
fault `c` (R24, R130). -/
def EndsWithStatus (s : State) (c : StatusCode) (o : Host.Outcome State Fault Refusal) : Prop :=
  (c = 0#3 → ∃ data, o = .next (afterSuccess s data)) ∧ (c ≠ 0#3 → o = .next (afterFault s c))

/-- The status of a request's result. -/
def resultStatus : Except RequestFault Word → StatusCode
  | .ok _ => 0#3
  | .error f => faultCode f

/-- The status of splitting a countdown (R101). -/
def countdownStatus (r : Int) : StatusCode := if 0 ≤ r ∧ r ≤ 199 then 0#3 else 5#3

/-- The status of composing in a phase: BAD_PHASE first, no countdown read in YELLOW (R107, R108, R135). -/
def phaseStatus (ph : Option Phase) (r : Int) : StatusCode :=
  match ph with
  | none => 3#3
  | some .yellow => 0#3
  | some _ => countdownStatus r

/-- The status of a decoded request (R134). -/
def instrStatus : Instr → StatusCode
  | .encode digit => if 10 ≤ digit then 4#3 else 0#3
  | .pack _ => 0#3
  | .unpack _ _ => 0#3
  | .split remaining => countdownStatus remaining
  | .compose phase _ remaining => phaseStatus phase remaining
  | .frame phase remaining => phaseStatus phase remaining

/-! ### The outcome of a meaning has the status of its request -/

theorem endsWithStatus_afterFault (s : State) (f : RequestFault) :
    EndsWithStatus s (faultCode f) (.next (afterFault s (faultCode f))) :=
  ⟨fun h => absurd h (faultCode_ne_zero f), fun _ => rfl⟩

/-- Completing a request ends with the status of its result. -/
theorem endsWithStatus_complete {res : Except RequestFault Word} {c : StatusCode} (hc : resultStatus res = c) (s : State) :
    EndsWithStatus s c (complete res s) := by
  subst hc
  cases res with
  | ok data => exact ⟨fun _ => ⟨data, rfl⟩, fun h => absurd rfl h⟩
  | error f => exact endsWithStatus_afterFault s f

theorem resultStatus_encodeResult (c : Cfg) (d : Nat) :
    resultStatus (encodeResult c d) = instrStatus (.encode d) := by
  by_cases h : d < 10
  · rw [encodeResult, dif_pos h, instrStatus, if_neg (by omega)]; rfl
  · rw [encodeResult, dif_neg h, instrStatus, if_pos (by omega)]; rfl

theorem countdownStatus_of_shown {r : Int} (h : 0 ≤ r ∧ r ≤ 199) : countdownStatus r = 0#3 := if_pos h

theorem countdownStatus_of_not_shown {r : Int} (h : r < 0 ∨ 199 < r) : countdownStatus r = 5#3 := if_neg (by omega)

theorem shown_or_not_shown (r : Int) : (0 ≤ r ∧ r ≤ 199) ∨ (r < 0 ∨ 199 < r) := by omega

theorem resultStatus_splitResult (r : Int) : resultStatus (splitResult r) = countdownStatus r := by
  rcases shown_or_not_shown r with h | h
  · obtain ⟨tens, ones, hs, -⟩ := splitDigits_of_shown h.1 h.2
    rw [countdownStatus_of_shown h, splitResult, hs]; rfl
  · rw [countdownStatus_of_not_shown h, splitResult, splitDigits_of_not_shown h]; rfl

/-- A composition in a phase writes at both positions or at neither, as the status of the phase says. -/
theorem composeWrites_status (c : Cfg) (p : Phase) (r : Int) :
    (phaseStatus (some p) r = 0#3 ∧ ∀ pos, ∃ ws, composeWrites c p pos r = .ok ws) ∨
    (phaseStatus (some p) r = 5#3 ∧ ∀ pos, composeWrites c p pos r = .error .displayRange) := by
  by_cases hp : p = .yellow
  · subst hp; exact .inl ⟨rfl, fun pos => ⟨_, composeWrites_yellow c pos r⟩⟩
  have hs : phaseStatus (some p) r = countdownStatus r := by
    cases p with
    | red => rfl
    | green => rfl
    | yellow => exact absurd rfl hp
  rw [hs]
  rcases shown_or_not_shown r with h | h
  · refine .inl ⟨countdownStatus_of_shown h, fun pos => ?_⟩
    obtain ⟨d, -, hw⟩ := composeWrites_of_shown c hp pos h.1 h.2
    exact ⟨_, hw⟩
  · exact .inr ⟨countdownStatus_of_not_shown h, fun pos => composeWrites_of_not_shown c hp pos h⟩

theorem resultStatus_composeResult (c : Cfg) (ph : Option Phase) (pos : DigitPos) (r : Int) :
    resultStatus (composeResult c ph pos r) = phaseStatus ph r := by
  cases ph with
  | none => rfl
  | some p =>
    rcases composeWrites_status c p r with ⟨hs, hw⟩ | ⟨hs, hw⟩
    · obtain ⟨ws, h⟩ := hw pos
      rw [hs, composeResult_of_writes h]; rfl
    · rw [hs, composeResult_of_error (hw pos)]; rfl

theorem resultStatus_frameResult (c : Cfg) (ph : Option Phase) (r : Int) :
    resultStatus (frameResult c ph r) = phaseStatus ph r := by
  cases ph with
  | none => rfl
  | some p =>
    rcases composeWrites_status c p r with ⟨hs, hw⟩ | ⟨hs, hw⟩
    · obtain ⟨w₁, h₁⟩ := hw .p1
      obtain ⟨w₂, h₂⟩ := hw .p2
      rw [hs, frameResult_of_writes h₁ h₂]; rfl
    · rw [hs, frameResult_of_error (hw .p1)]; rfl

/-- Every request ends with the status of its class, whatever the state. -/
theorem exec_endsWithStatus (i : Instr) (s : State) : EndsWithStatus s (instrStatus i) (exec i s) := by
  cases i with
  | encode d => exact endsWithStatus_complete (resultStatus_encodeResult s.cfg d) s
  | pack ch => exact endsWithStatus_complete (res := .ok _) rfl s
  | unpack a b => exact endsWithStatus_complete (res := .ok _) rfl s
  | split r => exact endsWithStatus_complete (resultStatus_splitResult r) s
  | compose ph pos r => exact endsWithStatus_complete (resultStatus_composeResult s.cfg ph pos r) s
  | frame ph r => exact endsWithStatus_complete (resultStatus_frameResult s.cfg ph r) s

/-! ### The status of a word in arithmetic is the status of what it decodes to -/

theorem countdownStatus_signed16 {n : Nat} (h : n < 65536) :
    countdownStatus (signed16 n) = if 200 ≤ n then 5#3 else 0#3 := by
  have hs : (0 ≤ signed16 n ∧ signed16 n ≤ 199) ↔ ¬ 200 ≤ n := by unfold signed16; split <;> omega
  rw [countdownStatus, if_congr hs rfl rfl, ite_not]

/-- The status of composing in the phase with a number (R66). -/
theorem phaseStatus_phaseNumbered {k : Nat} (h : k < 4) (r : Int) :
    phaseStatus (phaseNumbered k) r = if k = 3 then 3#3 else if k = 2 then 0#3 else countdownStatus r := by
  match k, h with
  | 0, _ => rfl
  | 1, _ => rfl
  | 2, _ => rfl
  | 3, _ => rfl

/-- `reservedBitSet` is the decoder's must-be-zero check. -/
theorem reservedBitSet_eq {n : Nat} {op : Op} {R : Word} (h : opNumbered n = some op) :
    reservedBitSet n R.toNat = !mustBeZeroClear op R := by
  have hb : reservedBitSet n R.toNat = true ↔ ¬ mustBeZeroClear op R = true := by
    rw [mustBeZeroClear_iff, eq_of_opNumbered h]
    cases op <;> simp [reservedBitSet]
  rw [Bool.eq_iff_iff, hb]; simp

/-- An operation's number is below 6 (R61). -/
theorem not_six_le_of_opNumbered {n : Nat} {op : Op} (h : opNumbered n = some op) : ¬ 6 ≤ n := fun h6 => by
  rw [opNumbered_of_six_le h6] at h; cases h

theorem expectedStatus_of_no_op {R : Word} (h : opNumbered (R.toNat % 16) = none) : expectedStatus R = 1#3 := by
  have h6 : 6 ≤ R.toNat % 16 := by
    by_contra hlt
    have : R.toNat % 16 < 6 := by omega
    interval_cases R.toNat % 16 <;> cases h
  exact if_pos h6

theorem expectedStatus_of_reserved {R : Word} {op : Op} (h : opNumbered (R.toNat % 16) = some op)
    (hm : mustBeZeroClear op R = false) : expectedStatus R = 2#3 := by
  have hr : reservedBitSet (R.toNat % 16) R.toNat = true := by rw [reservedBitSet_eq h, hm]; rfl
  simp only [expectedStatus, if_neg (not_six_le_of_opNumbered h), if_pos hr]

theorem expectedStatus_of_clear {R : Word} {op : Op} (h : opNumbered (R.toNat % 16) = some op)
    (hm : mustBeZeroClear op R = true) : expectedStatus R = instrStatus (assemble op R) := by
  have hr : ¬ reservedBitSet (R.toNat % 16) R.toNat = true := by rw [reservedBitSet_eq h, hm]; simp
  have hop := eq_of_opNumbered h
  have hphase : R.toNat / 16 % 4 < 4 := Nat.mod_lt _ (by decide)
  have hrem : R.toNat / 65536 < 65536 := by have := R.isLt; omega
  simp only [expectedStatus, if_neg (not_six_le_of_opNumbered h), if_neg hr]
  cases op with
  | encode => simp [hop, assemble, instrStatus, digitOperand_eq]
  | pack => simp [hop, assemble, instrStatus]
  | unpack => simp [hop, assemble, instrStatus]
  | split => simp [hop, assemble, instrStatus, remainingOperand_eq, countdownStatus_signed16 hrem]
  | compose =>
    simp [hop, assemble, instrStatus, remainingOperand_eq, phaseOperand_eq, phaseStatus_phaseNumbered hphase,
      countdownStatus_signed16 hrem, ite_and]
  | frame =>
    simp [hop, assemble, instrStatus, remainingOperand_eq, phaseOperand_eq, phaseStatus_phaseNumbered hphase,
      countdownStatus_signed16 hrem, ite_and]

/-- Serving a word ends with the status the arithmetic of the word gives (R131, R135). -/
theorem serve_endsWithStatus (R : Word) (s : State) : EndsWithStatus s (expectedStatus R) (serve R s) := by
  rcases decode_cases R with ⟨hd, hop⟩ | ⟨op, hop, ⟨hd, hm⟩ | ⟨hd, hm⟩⟩
  · rw [expectedStatus_of_no_op hop, serve_of_error hd]
    exact endsWithStatus_afterFault s .illegalOp
  · rw [expectedStatus_of_reserved hop hm, serve_of_error hd]
    exact endsWithStatus_afterFault s .reservedField
  · rw [expectedStatus_of_clear hop hm, serve_of_ok hd]
    exact exec_endsWithStatus (assemble op R) s

/-- A step serves the oldest word and ends with its status. -/
theorem step_endsWithStatus {s : State} {R : Word} {rest : List Word} (h : s.requests = R :: rest) :
    EndsWithStatus (withRequests s rest) (expectedStatus R) (step s) := by
  rw [step_of_cons h]; exact serve_endsWithStatus R _

end Sys2Proof.Machine
end

section
/-! PROOF. Construction and runs (R25, R32): the CFG registers hold the arguments of an accepted construction, and a run over the
presented words records exactly the first fault. -/

namespace Sys2Proof.Machine

/-! ### Construction (R32) -/

/-- A legal position is what its register holds. -/
theorem narrow_position {n : Nat} {xs : Vector Nat n} (h : ∀ k ∈ xs.toList, k < 16) (j : Fin n) :
    ((narrow (Fin.ofNat 16) xs)[j]).val = xs[j] := by
  have hj : xs[j.val] < 16 := h _ (by simp)
  rw [Fin.getElem_fin, getElem_narrow]
  exact Nat.mod_eq_of_lt hj

/-- A legal pattern is what its register holds. -/
theorem narrow_pattern {n : Nat} {xs : Vector Nat n} (h : ∀ p ∈ xs.toList, p < 128) (j : Fin n) :
    ((narrow (BitVec.ofNat 7) xs)[j]).toNat = xs[j] := by
  have hj : xs[j.val] < 128 := h _ (by simp)
  rw [Fin.getElem_fin, getElem_narrow]
  exact Nat.mod_eq_of_lt hj

/-- A legal level is what DEN_ON holds. -/
theorem toNat_beq_one_of_lt_two {n : Nat} (h : n < 2) : n = (n == 1).toNat := by
  match n, h with
  | 0, _ => rfl
  | 1, _ => rfl

/-! ### Runs (R25) -/

/-- What serving the words `Rs` from `s` leaves in CFG, RESP_STATUS and the fault record of `t` (R25). -/
structure Served (s : State) (Rs : List Word) (t : State) : Prop where
  cfg : t.cfg = s.cfg
  respStatus : t.respStatus = (Rs.getLast?.map expectedStatus).getD s.respStatus
  faulted : t.faulted = (s.faulted || Rs.any fun R => decide (expectedStatus R ≠ 0#3))
  firstFault : t.firstFault = bif s.faulted then s.firstFault else firstFaultOf Rs s.firstFault

theorem served_nil (s : State) : Served s [] s where
  cfg := rfl
  respStatus := rfl
  faulted := by simp
  firstFault := by simp [firstFaultOf]

/-- Serving `R` and then `rest` is serving `R :: rest`. -/
theorem Served.cons {s t u : State} {R : Word} {rest : List Word} (h₁ : Served s [R] t) (h₂ : Served t rest u) :
    Served s (R :: rest) u where
  cfg := h₂.cfg.trans h₁.cfg
  respStatus := by
    rw [h₂.respStatus, h₁.respStatus]
    simp [List.getLast?_cons]
  faulted := by
    rw [h₂.faulted, h₁.faulted]
    simp [Bool.or_assoc]
  firstFault := by
    rw [h₂.firstFault, h₁.firstFault, h₁.faulted]
    cases s.faulted with
    | true => rfl
    | false => by_cases hc : expectedStatus R = 0#3 <;> simp [firstFaultOf, hc]

/-- A step serves the oldest presented word and leaves the others. -/
theorem step_serves {s : State} {R : Word} {rest : List Word} (h : s.requests = R :: rest) :
    ∃ t, step s = .next t ∧ t.requests = rest ∧ Served s [R] t := by
  obtain ⟨hok, hfault⟩ := step_endsWithStatus h
  by_cases hc : expectedStatus R = 0#3
  · obtain ⟨data, ht⟩ := hok hc
    exact ⟨_, ht, rfl, rfl, by simp [hc], by simp [hc], by simp [firstFaultOf, hc]⟩
  · exact ⟨_, hfault hc, rfl, rfl, by simp, by simp [hc], by simp [firstFaultOf, hc]⟩

/-- A run of as many steps as words are presented serves them all. -/
theorem run_serves (Rs : List Word) {s : State} (h : s.requests = Rs) :
    ∃ t, Host.Core.run core Rs.length s = .next t ∧ t.requests = [] ∧ Served s Rs t := by
  induction Rs generalizing s with
  | nil => exact ⟨s, rfl, h, served_nil s⟩
  | cons R rest ih =>
    obtain ⟨t, hstep, hreq, ht⟩ := step_serves h
    obtain ⟨u, hrun, hnone, hu⟩ := ih hreq
    exact ⟨u, (run_of_step hstep rest.length).trans hrun, hnone, ht.cons hu⟩

/-- A constructed state has no fault recorded (R32). -/
theorem construct_records_no_fault {a : ConstructionArgs} {s : State} (h : construct a = .next s) :
    s.faulted = false ∧ s.firstFault = 0#3 := by
  rcases construct_cases a with ⟨-, hc⟩ | ⟨-, hc⟩ <;> rw [hc] at h <;> cases h
  exact ⟨rfl, rfl⟩

/-- Settles O6: each legal argument survives the narrowing to its register, and the rest is the state of R32. -/
theorem constructionSetsEveryField : Obligations.ConstructionSetsEveryField := by
  intro a ha
  obtain ⟨⟨hpos, htable, hden, hfill⟩, -⟩ := (argsAccepted_iff a).1 ha
  simp only [argPositions, List.mem_append] at hpos
  refine ⟨State.afterConstruction (cfgOfArgs a), if_pos ha, narrow_position fun k hk => hpos k (.inl (.inl hk)),
    narrow_position fun k hk => hpos k (.inl (.inr hk)), narrow_position fun k hk => hpos k (.inr hk),
    narrow_pattern htable, toNat_beq_one_of_lt_two hden, Nat.mod_eq_of_lt hfill, rfl, rfl, rfl, rfl, rfl⟩

/-- Settles O23, by induction on the presented words (`run_serves`). -/
theorem runRecordsTheFirstFault : Obligations.RunRecordsTheFirstFault := by
  refine ⟨fun a s h => construct_records_no_fault h, fun Rs s h => ?_⟩
  obtain ⟨t, hrun, hnone, ht⟩ := run_serves Rs h
  exact ⟨t, hrun, hnone, ht.cfg, fun R hR => by rw [ht.respStatus, hR]; rfl, ht.faulted, ht.firstFault⟩

end Sys2Proof.Machine
end

section
/-! PROOF. The decoder against the format tables (R61 to R66, R68) and the rows of opcode_table.json (R69): what it answers on
every word in arithmetic, and the mask and match that admit the words of an operation. -/

namespace Sys2Proof.Machine

/-! ### The formats -/

/-- Decoding a word of operation `op`, where `clear` says that its must-be-zero bits are 0 and `i` is what it assembles. -/
theorem decode_eq_ite {R : Word} {op : Op} {clear : Prop} [Decidable clear] {i : Instr}
    (hop : opNumbered (R.toNat % 16) = some op) (hclear : mustBeZeroClear op R = true ↔ clear)
    (hasm : assemble op R = i) : decode R = if clear then .ok i else .error .reservedField := by
  rw [decode_of_op hop, hasm]
  exact if_congr hclear rfl rfl

/-! ### The operation a word decodes to -/

/-- The operation of a decoded request. -/
def opOf : Instr → Op
  | .encode _ => .encode
  | .pack _ => .pack
  | .unpack _ _ => .unpack
  | .split _ => .split
  | .compose _ _ _ => .compose
  | .frame _ _ => .frame

theorem opOf_assemble (op : Op) (R : Word) : opOf (assemble op R) = op := by cases op <;> rfl

theorem opOf_eq_iff (i : Instr) (op : Op) :
    opOf i = op ↔
      match op with
      | .encode => ∃ d, i = .encode d
      | .pack => ∃ ch, i = .pack ch
      | .unpack => ∃ a b, i = .unpack a b
      | .split => ∃ r, i = .split r
      | .compose => ∃ ph pos r, i = .compose ph pos r
      | .frame => ∃ ph r, i = .frame ph r := by
  constructor
  · rintro rfl
    cases i <;> simp [opOf]
  · intro h
    match i, op, h with
    | _, .encode, ⟨_, rfl⟩ => rfl
    | _, .pack, ⟨_, rfl⟩ => rfl
    | _, .unpack, ⟨_, _, rfl⟩ => rfl
    | _, .split, ⟨_, rfl⟩ => rfl
    | _, .compose, ⟨_, _, _, rfl⟩ => rfl
    | _, .frame, ⟨_, _, rfl⟩ => rfl

/-- Decoding reaches an operation exactly when OP names it and its must-be-zero bits are 0 (R69). -/
theorem decode_reaches_iff (op : Op) (R : Word) :
    (∃ i, decode R = .ok i ∧ opOf i = op) ↔ opOfField (opField R) = some op ∧ mustBeZeroClear op R = true := by
  rw [opOfField_opField]
  constructor
  · rintro ⟨i, hi, rfl⟩
    rcases decode_cases R with ⟨hd, -⟩ | ⟨op, hop, ⟨hd, -⟩ | ⟨hd, hm⟩⟩ <;> rw [hd] at hi <;> cases hi
    rw [opOf_assemble]
    exact ⟨hop, hm⟩
  · rintro ⟨hop, hm⟩
    exact ⟨assemble op R, by rw [decode_of_op hop, if_pos hm], opOf_assemble op R⟩

/-- Where OP names an operation, decoding answers a request or RESERVED_FIELD. -/
theorem decode_of_op_le_five {R : Word} (h : R.toNat % 16 ≤ 5) :
    (∃ i, decode R = .ok i) ∨ decode R = .error .reservedField := by
  rcases decode_cases R with ⟨-, hop⟩ | ⟨op, -, ⟨hd, -⟩ | ⟨hd, -⟩⟩
  · interval_cases R.toNat % 16 <;> cases hop
  · exact .inr hd
  · exact .inl ⟨_, hd⟩

/-! ### Masks -/

/-- The OP field that names an operation (R61). -/
def opCode : Op → BitVec 4
  | .encode => 0
  | .pack => 1
  | .unpack => 2
  | .split => 3
  | .compose => 4
  | .frame => 5

theorem opOfField_eq_some_iff (f : BitVec 4) (op : Op) : opOfField f = some op ↔ f = opCode op := by
  cases op <;> revert f <;> decide

/-- The lowest must-be-zero bit of an operation's format (R62 to R66). -/
def reservedLow : Op → Nat
  | .encode => 8
  | .compose => 7
  | .frame => 6
  | _ => 4

/-- How many must-be-zero bits an operation's format has, from `reservedLow` up (R62 to R66). -/
def reservedWidth : Op → Nat
  | .encode => 24
  | .compose => 9
  | .frame => 10
  | _ => 12

theorem mustBeZeroClear_iff_extract (op : Op) (R : Word) :
    mustBeZeroClear op R = true ↔ R.extractLsb' (reservedLow op) (reservedWidth op) = 0#(reservedWidth op) := by
  cases op <;> exact decide_eq_true_iff

/-- The mask that covers OP and the `len` bits from bit `lo` up (R69). -/
def fieldMask (lo len : Nat) : Word := bitsFrom 32 fun i => decide (i < 4 ∨ lo ≤ i ∧ i < lo + len)

theorem getLsbD_and_fieldMask (R : Word) (lo len : Nat) {i : Nat} (hi : i < 32) :
    (R &&& fieldMask lo len).getLsbD i = (R.getLsbD i && decide (i < 4 ∨ lo ≤ i ∧ i < lo + len)) := by
  rw [BitVec.getLsbD_and, fieldMask, getLsbD_bitsFrom, decide_eq_true hi, Bool.true_and]

/-- A word leaves `op` under a mask exactly when its OP is `op` and its other masked field is 0. -/
theorem and_fieldMask_eq_iff (R : Word) {lo len : Nat} (hlo : 4 ≤ lo) (hfit : lo + len ≤ 32) (op : BitVec 4) :
    R &&& fieldMask lo len = op.setWidth 32 ↔ opField R = op ∧ R.extractLsb' lo len = 0#len := by
  constructor
  · intro h
    have hbit : ∀ i, (i < 4 ∨ lo ≤ i ∧ i < lo + len) → R.getLsbD i = op.getLsbD i := fun i hi => by
      have h32 : i < 32 := by omega
      have hb := getLsbD_and_fieldMask R lo len h32
      rw [h, decide_eq_true hi, Bool.and_true, BitVec.getLsbD_setWidth, decide_eq_true h32, Bool.true_and] at hb
      exact hb.symm
    refine ⟨BitVec.eq_of_getLsbD_eq fun i hi => ?_, BitVec.eq_of_getLsbD_eq fun i hi => ?_⟩
    · simpa [opField, hi] using hbit i (.inl hi)
    · have hhigh : op.getLsbD (lo + i) = false := BitVec.getLsbD_of_ge _ _ (by omega)
      simpa [hi, hhigh] using hbit (lo + i) (.inr ⟨by omega, by omega⟩)
  · rintro ⟨rfl, hfield⟩
    refine BitVec.eq_of_getLsbD_eq fun i hi => ?_
    rw [getLsbD_and_fieldMask R lo len hi]
    by_cases hop : i < 4
    · simp [opField, hi, hop]
    by_cases hres : lo ≤ i ∧ i < lo + len
    · have hlen : i - lo < len := by omega
      have hzero : R.getLsbD i = false := by
        simpa [hlen, Nat.add_sub_cancel' hres.1] using congrArg (BitVec.getLsbD · (i - lo)) hfield
      simp [hzero, opField, hop]
    · rw [decide_eq_false (not_or.2 ⟨hop, hres⟩)]
      simp [opField, hop]

/-- The rows of opcode_table.json, from the OP and the must-be-zero bits of each format. -/
theorem row_assemble (op : Op) (R : Word) :
    Laws.RowMatch.row (assemble op R) =
      (fieldMask (reservedLow op) (reservedWidth op), (opCode op).setWidth 32) := by
  cases op <;> rfl

/-- Decoding reaches an operation exactly on the words its row's mask and match admit (R69). -/
theorem decode_reaches_iff_row (op : Op) (R : Word) :
    (∃ i, decode R = .ok i ∧ opOf i = op) ↔
      R &&& (Laws.RowMatch.row (assemble op R)).1 = (Laws.RowMatch.row (assemble op R)).2 := by
  have hlo : 4 ≤ reservedLow op := by cases op <;> decide
  have hfit : reservedLow op + reservedWidth op ≤ 32 := by cases op <;> decide
  rw [decode_reaches_iff, opOfField_eq_some_iff, mustBeZeroClear_iff_extract, row_assemble,
    and_fieldMask_eq_iff R hlo hfit]

/-! ### The statements -/

/-- Settles O1: each format's must-be-zero bits and operands, in arithmetic on the word. -/
theorem decodeFollowsTheFormats : Obligations.DecodeFollowsTheFormats := by
  intro R
  refine ⟨decode_illegal, fun h => ?_, fun h => ?_, fun h => ?_, fun h => ?_, fun h => ?_, fun h => ?_⟩
  · exact decode_eq_ite (congrArg opNumbered h) (mustBeZeroClear_iff .encode R) (by rw [assemble, digitOperand_eq])
  · exact decode_eq_ite (congrArg opNumbered h) (mustBeZeroClear_iff .pack R) (by rw [assemble, channelsOperand_eq])
  · exact decode_eq_ite (congrArg opNumbered h) (mustBeZeroClear_iff .unpack R)
      (by rw [assemble, byteAOperand_eq, byteBOperand_eq])
  · exact decode_eq_ite (congrArg opNumbered h) (mustBeZeroClear_iff .split R) (by rw [assemble, remainingOperand_eq])
  · exact decode_eq_ite (congrArg opNumbered h) (mustBeZeroClear_iff .compose R)
      (by rw [assemble, phaseOperand_eq, posOperand_eq, remainingOperand_eq])
  · exact decode_eq_ite (congrArg opNumbered h) (mustBeZeroClear_iff .frame R)
      (by rw [assemble, phaseOperand_eq, remainingOperand_eq])

/-- Settles O2: OP and the must-be-zero bits decide the operation reached, and a row's mask covers exactly them. -/
theorem decodeAgreesWithOpcodeTable : Obligations.DecodeAgreesWithOpcodeTable := by
  intro R
  refine ⟨decode_illegal, decode_of_op_le_five, ?_, ?_, ?_, ?_, ?_, ?_⟩
  · simpa [opOf_eq_iff, assemble, Laws.RowMatch.row] using decode_reaches_iff_row .encode R
  · simpa [opOf_eq_iff, assemble, Laws.RowMatch.row] using decode_reaches_iff_row .pack R
  · simpa [opOf_eq_iff, assemble, Laws.RowMatch.row] using decode_reaches_iff_row .unpack R
  · simpa [opOf_eq_iff, assemble, Laws.RowMatch.row] using decode_reaches_iff_row .split R
  · simpa [opOf_eq_iff, assemble, Laws.RowMatch.row] using decode_reaches_iff_row .compose R
  · simpa [opOf_eq_iff, assemble, Laws.RowMatch.row] using decode_reaches_iff_row .frame R

end Sys2Proof.Machine
end

section
/-! PROOF. The statement on the status of every request word (R70, R130 to R135). -/

namespace Sys2Proof.Machine

/-- Settles O14: a step ends with the status of its word (`step_endsWithStatus`). -/
theorem everyWordGetsItsStatus : Obligations.EveryWordGetsItsStatus :=
  fun _ _ _ h => step_endsWithStatus h

end Sys2Proof.Machine
end

section
/-! PROOF. Steps by the format of the oldest word (R69), and ENCODE from its word to the state after it (R80). -/

namespace Sys2Proof.Machine

/-! ### A step whose word names an operation -/

/-- A must-be-zero bit of the format that is 1 is RESERVED_FIELD, whatever the operands (R132). -/
theorem step_of_reserved {s : State} {R : Word} {rest : List Word} {op : Op} (h : s.requests = R :: rest)
    (hop : opNumbered (R.toNat % 16) = some op) (hm : ¬ mustBeZeroClear op R = true) :
    step s = .next (afterFault (withRequests s rest) 2#3) := by
  have hd : decode R = .error .reservedField := by rw [decode_of_op hop, if_neg hm]
  exact (step_of_cons h).trans (serve_of_error hd _)

/-- With its must-be-zero bits 0, a word runs its operation on the assembled operands. -/
theorem step_of_clear {s : State} {R : Word} {rest : List Word} {op : Op} (h : s.requests = R :: rest)
    (hop : opNumbered (R.toNat % 16) = some op) (hm : mustBeZeroClear op R = true) :
    step s = exec (assemble op R) (withRequests s rest) := by
  have hd : decode R = .ok (assemble op R) := by rw [decode_of_op hop, if_pos hm]
  exact (step_of_cons h).trans (serve_of_ok hd _)

/-! ### ENCODE (R80) -/

/-- A digit in 0..9 answers its pattern, zero-extended. -/
theorem exec_encode_of_lt_ten (s : State) {d : Nat} (h : d < 10) :
    exec (.encode d) s = .next (afterSuccess s ((s.cfg.segTable[d]).setWidth 32)) := by
  have hr : encodeResult s.cfg d = .ok ((s.cfg.segTable[d]).setWidth 32) := dif_pos h
  rw [exec, execEncode, hr, complete_ok]

/-- Every other digit is DIGIT_RANGE. -/
theorem exec_encode_of_ten_le (s : State) {d : Nat} (h : 10 ≤ d) :
    exec (.encode d) s = .next (afterFault s 4#3) := by
  have hr : encodeResult s.cfg d = .error .digitRange := dif_neg (by omega)
  rw [exec, execEncode, hr, complete_error, faultCode]

/-- With bits 31:8 zero, an ENCODE word is its DIGIT alone (R62). -/
theorem assemble_encode_of_clear {R : Word} (h : R.toNat / 256 = 0) : assemble .encode R = .encode (R.toNat / 16) := by
  have hdigit : R.toNat / 16 % 16 = R.toNat / 16 := by omega
  rw [assemble, digitOperand_eq, hdigit]

/-- Settles O25: the must-be-zero bits first (`step_of_reserved`), then the range of DIGIT. -/
theorem encodeRequest : Obligations.EncodeRequest := by
  intro s R rest h h0
  have hop : opNumbered (R.toNat % 16) = some .encode := congrArg opNumbered h0
  have hclear : mustBeZeroClear .encode R = true ↔ R.toNat / 256 = 0 := mustBeZeroClear_iff .encode R
  have hrun (hz : R.toNat / 256 = 0) : step s = exec (.encode (R.toNat / 16)) (withRequests s rest) := by
    rw [step_of_clear h hop (hclear.2 hz), assemble_encode_of_clear hz]
  refine ⟨fun hz => ?_, fun hz hd => ?_, fun hz hd => ?_⟩
  · exact step_of_reserved h hop (mt hclear.1 hz)
  · exact (hrun hz).trans (exec_encode_of_lt_ten _ hd)
  · exact (hrun hz).trans (exec_encode_of_ten_le _ hd)

end Sys2Proof.Machine
end

section
/-! PROOF. PACK and UNPACK from the request word to the state after it (R90, R91). -/

namespace Sys2Proof.Machine

/-! ### PACK (R90) -/

/-- Bit i of `rev_8(ch[lo+7:lo])` (R9). -/
theorem getLsbD_reverse_extract (ch : Channels) (lo : Nat) {i : Nat} (hi : i < 8) :
    (ch.extractLsb' lo 8).reverse.getLsbD i = ch.getLsbD (lo + (7 - i)) := by
  have hrev : 8 - 1 - i < 8 := by omega
  simp only [BitVec.getLsbD_reverse, BitVec.getMsbD, BitVec.getLsbD_extractLsb', hi, hrev, decide_true, Bool.true_and]

/-- `byteA = rev_8(ch[15:8])` (R90). -/
theorem packFrame_byteA (ch : Channels) : (packFrame ch).byteA = (ch.extractLsb' 8 8).reverse := by
  refine BitVec.eq_of_getLsbD_eq fun i hi => ?_
  rw [getLsbD_packFrame_byteA, getLsbD_reverse_extract ch 8 hi, decide_eq_true hi, Bool.true_and,
    show 15 - i = 8 + (7 - i) by omega]

/-- `byteB = rev_8(ch[7:0])` (R90). -/
theorem packFrame_byteB (ch : Channels) : (packFrame ch).byteB = (ch.extractLsb' 0 8).reverse := by
  refine BitVec.eq_of_getLsbD_eq fun i hi => ?_
  rw [getLsbD_packFrame_byteB, getLsbD_reverse_extract ch 0 hi, decide_eq_true hi, Bool.true_and, Nat.zero_add]

/-- Zero-extending a frame word puts 16 zero bits above its two bytes (R45). -/
theorem setWidth_frameWord (f : Frame) : (frameWord f).setWidth 32 = 0#16 ++ f.byteA ++ f.byteB := by
  rw [frameWord, BitVec.setWidth_eq_append (by decide), BitVec.append_assoc]

/-- PACK answers the two reversed halves of the array, whatever the array (R90). -/
theorem exec_pack (s : State) (ch : Channels) :
    exec (.pack ch) s =
      .next (afterSuccess s (0#16 ++ (ch.extractLsb' 8 8).reverse ++ (ch.extractLsb' 0 8).reverse)) := by
  rw [exec, execPack, complete_ok, setWidth_frameWord, packFrame_byteA, packFrame_byteB]

/-- The operand of PACK is R[31:16], so a field of it is the field of R 16 bits higher (R63). -/
theorem extract_channelsOperand (R : Word) {lo len : Nat} (hfit : lo + len ≤ 16) :
    (channelsOperand R).extractLsb' lo len = R.extractLsb' (16 + lo) len := by
  refine BitVec.eq_of_getLsbD_eq fun i hi => ?_
  have hin : lo + i < 16 := by omega
  simp only [channelsOperand, BitVec.getLsbD_extractLsb', hin, decide_true, Bool.true_and, Nat.add_assoc]

/-- Settles O27: the must-be-zero bits first (`step_of_reserved`), then `exec_pack` on the operand's two halves. -/
theorem packRequest : Obligations.PackRequest := by
  intro s R rest h h1
  have hop : opNumbered (R.toNat % 16) = some .pack := congrArg opNumbered h1
  have hclear : mustBeZeroClear .pack R = true ↔ R.toNat / 16 % 4096 = 0 := mustBeZeroClear_iff .pack R
  refine ⟨fun hz => ?_, fun hz => ?_⟩
  · exact step_of_reserved h hop (mt hclear.1 hz)
  · rw [step_of_clear h hop (hclear.2 hz), assemble, exec_pack, extract_channelsOperand R (by decide),
      extract_channelsOperand R (by decide)]

/-! ### UNPACK (R91) -/

/-- UNPACK answers the unpacked array, zero-extended, whatever the two bytes (R91). -/
theorem exec_unpack (s : State) (a b : Byte) :
    exec (.unpack a b) s = .next (afterSuccess s ((unpackFrame ⟨a, b⟩).setWidth 32)) := by
  rw [exec, execUnpack, complete_ok]

/-- No bit above 15 of the response word of UNPACK is 1. -/
theorem unpackFrame_fits (f : Frame) : ((unpackFrame f).setWidth 32).toNat < 65536 := by
  rw [BitVec.toNat_setWidth_of_le (by decide)]
  exact (unpackFrame f).isLt

/-- `ch[15-i] = a[i]` in the response word (R91). -/
theorem getLsbD_unpackFrame_high (f : Frame) {i : Nat} (hi : i ≤ 7) :
    ((unpackFrame f).setWidth 32).getLsbD (15 - i) = f.byteA.getLsbD i := by
  rw [BitVec.getLsbD_setWidth, getLsbD_unpackFrame, if_neg (by omega), show 15 - (15 - i) = i by omega]
  simp [show 15 - i < 32 by omega, show 15 - i < 16 by omega]

/-- `ch[7-i] = b[i]` in the response word (R91). -/
theorem getLsbD_unpackFrame_low (f : Frame) {i : Nat} (hi : i ≤ 7) :
    ((unpackFrame f).setWidth 32).getLsbD (7 - i) = f.byteB.getLsbD i := by
  rw [BitVec.getLsbD_setWidth, getLsbD_unpackFrame, if_pos (by omega), show 7 - (7 - i) = i by omega]
  simp [show 7 - i < 32 by omega, show 7 - i < 16 by omega]

/-- BA is R[31:24] (R64, R68). -/
theorem getLsbD_byteAOperand (R : Word) {i : Nat} (hi : i ≤ 7) : (byteAOperand R).getLsbD i = R.getLsbD (24 + i) := by
  rw [byteAOperand, BitVec.getLsbD_extractLsb', decide_eq_true (show i < 8 by omega), Bool.true_and]

/-- BB is R[23:16] (R64, R68). -/
theorem getLsbD_byteBOperand (R : Word) {i : Nat} (hi : i ≤ 7) : (byteBOperand R).getLsbD i = R.getLsbD (16 + i) := by
  rw [byteBOperand, BitVec.getLsbD_extractLsb', decide_eq_true (show i < 8 by omega), Bool.true_and]

/-- Settles O29: the must-be-zero bits first (`step_of_reserved`), then `exec_unpack`, whose data is read bit by bit. -/
theorem unpackRequest : Obligations.UnpackRequest := by
  intro s R rest h h2
  have hop : opNumbered (R.toNat % 16) = some .unpack := congrArg opNumbered h2
  have hclear : mustBeZeroClear .unpack R = true ↔ R.toNat / 16 % 4096 = 0 := mustBeZeroClear_iff .unpack R
  refine ⟨fun hz => ?_, fun hz => ?_⟩
  · exact step_of_reserved h hop (mt hclear.1 hz)
  · refine ⟨(unpackFrame ⟨byteAOperand R, byteBOperand R⟩).setWidth 32, ?_, unpackFrame_fits _, fun i hi => ⟨?_, ?_⟩⟩
    · rw [step_of_clear h hop (hclear.2 hz), assemble, exec_unpack]
    · rw [getLsbD_unpackFrame_high _ hi, getLsbD_byteAOperand R hi]
    · rw [getLsbD_unpackFrame_low _ hi, getLsbD_byteBOperand R hi]

end Sys2Proof.Machine
end

section
/-! PROOF. SPLIT from its countdown and from its request word to the state after it (R100 to R102). -/

namespace Sys2Proof.Machine

/-! ### The digits a countdown shows (R100) -/

/-- The hundred is dropped and the rest divided by ten. -/
theorem shownDigit_eq {r : Int} (h0 : 0 ≤ r) (h1 : r ≤ 199) :
    shownDigit .p1 r = r.toNat % 100 / 10 ∧ shownDigit .p2 r = r.toNat % 10 := by
  have hv : (if r ≤ 99 then r else r - 100).toNat = r.toNat % 100 := by split <;> omega
  have hones : r.toNat % 100 % 10 = r.toNat % 10 := Nat.mod_mod_of_dvd _ (by decide)
  exact ⟨congrArg (· / 10) hv, (congrArg (· % 10) hv).trans hones⟩

/-- Two BCD nibbles as a number (R67). -/
theorem bcdWord_eq (tens ones : Digit) : bcdWord tens ones = BitVec.ofNat 32 (16 * tens.val + ones.val) := by
  revert tens ones; decide

/-! ### The REM field of a word (R68, R102) -/

theorem remField_lt (R : Word) : R.toNat / 65536 < 65536 := by
  have := R.isLt; omega

/-- A REM field of 0..199 is the countdown itself (R102). -/
theorem signed16_of_le_199 {n : Nat} (h : n ≤ 199) : signed16 n = (n : Int) := if_pos (by omega)

/-- A REM field of 0..199 is a countdown in 0..199. -/
theorem signed16_shown {n : Nat} (h : n ≤ 199) : 0 ≤ signed16 n ∧ signed16 n ≤ 199 := by
  rw [signed16_of_le_199 h]; omega

/-- As an unsigned number a REM field of 200 or more is a countdown outside 0..199 (R102). -/
theorem signed16_not_shown {n : Nat} (h : 200 ≤ n) (hn : n < 65536) : signed16 n < 0 ∨ 199 < signed16 n := by
  unfold signed16; split <;> omega

/-! ### SPLIT (R101, R102) -/

/-- A countdown in 0..199 answers the digits it shows. -/
theorem exec_split_of_shown (s : State) {r : Int} (h0 : 0 ≤ r) (h1 : r ≤ 199) :
    exec (.split r) s = .next (afterSuccess s (BitVec.ofNat 32 (16 * (r.toNat % 100 / 10) + r.toNat % 10))) := by
  obtain ⟨tens, ones, hs, ht, ho⟩ := splitDigits_of_shown h0 h1
  obtain ⟨hp1, hp2⟩ := shownDigit_eq h0 h1
  have hr : splitResult r = .ok (bcdWord tens ones) := by rw [splitResult, hs]
  rw [exec, execSplit, hr, complete_ok, bcdWord_eq, ht, ho, hp1, hp2]

/-- Every other countdown is DISPLAY_RANGE. -/
theorem exec_split_of_not_shown (s : State) {r : Int} (h : r < 0 ∨ 199 < r) :
    exec (.split r) s = .next (afterFault s 5#3) := by
  have hr : splitResult r = .error .displayRange := by rw [splitResult, splitDigits_of_not_shown h]
  rw [exec, execSplit, hr, complete_error, faultCode]

/-- Settles O32: one rule for 0..199 (`exec_split_of_shown`), whose `mod 100` is the identity up to 99 and the subtraction of
100 above. -/
theorem splitCompletes : Obligations.SplitCompletes := by
  intro s r
  refine ⟨fun h0 h1 => ?_, fun h0 h1 => ?_, fun h => ?_⟩
  · have hv : r.toNat % 100 = r.toNat := Nat.mod_eq_of_lt (by omega)
    rw [exec_split_of_shown s h0 (by omega), hv]
  · have hv : r.toNat % 100 = r.toNat - 100 := by omega
    have hones : r.toNat % 10 = (r.toNat - 100) % 10 := by omega
    rw [exec_split_of_shown s (by omega) h1, hv, hones]
  · exact exec_split_of_not_shown s (by omega)

/-- Settles O33: the must-be-zero bits first (`step_of_reserved`), then the range of the signed REM field. -/
theorem splitRequest : Obligations.SplitRequest := by
  intro s R rest h h3
  have hop : opNumbered (R.toNat % 16) = some .split := congrArg opNumbered h3
  have hclear : mustBeZeroClear .split R = true ↔ R.toNat / 16 % 4096 = 0 := mustBeZeroClear_iff .split R
  have hrun (hz : R.toNat / 16 % 4096 = 0) :
      step s = exec (.split (signed16 (R.toNat / 65536))) (withRequests s rest) := by
    rw [step_of_clear h hop (hclear.2 hz), assemble, remainingOperand_eq]
  refine ⟨fun hz => ?_, fun hz hr => ?_, fun hz hr => ?_⟩
  · exact step_of_reserved h hop (mt hclear.1 hz)
  · rw [hrun hz, signed16_of_le_199 hr, exec_split_of_shown _ (by omega) (by omega), Int.toNat_natCast]
  · exact (hrun hz).trans (exec_split_of_not_shown _ (signed16_not_shown hr (remField_lt R)))

end Sys2Proof.Machine
end

section
/-! PROOF. What COMPOSE and FRAME answer, and the 16 channels of a composed frame (R103 to R107). -/

namespace Sys2Proof.Machine

/-! ### The response word of a write list -/

/-- The response word of COMPOSE for a list of writes: INIT_FILL, the writes, the packer (R108). -/
def composedWord (c : Cfg) (ws : List (ChannelPos × Bool)) : Word :=
  (frameWord (packFrame (applyWrites c.initFill ws))).setWidth 32

theorem composedWord_fits (c : Cfg) (ws : List (ChannelPos × Bool)) : (composedWord c ws).toNat < 65536 := frameWord_fits _

/-- With distinct positions a write is what its channel shows. -/
theorem channelOf_composedWord_of_mem (c : Cfg) {ws : List (ChannelPos × Bool)} (hnd : (ws.map Prod.fst).Nodup)
    {k : ChannelPos} {b : Bool} (h : (k, b) ∈ ws) : channelOf (composedWord c ws) k = b :=
  (channelOf_packFrame _ k).trans (getLsbD_applyWrites_of_mem ws hnd c.initFill (k, b) h)

/-- A channel no write names shows INIT_FILL (R103). -/
theorem channelOf_composedWord_of_not_mem (c : Cfg) {ws : List (ChannelPos × Bool)} {k : ChannelPos}
    (h : k ∉ ws.map Prod.fst) : channelOf (composedWord c ws) k = c.initFill.getLsbD k.val :=
  (channelOf_packFrame _ k).trans (getLsbD_applyWrites_of_not_mem ws c.initFill k h)

/-- COMPOSE answers the word of its write list. -/
theorem exec_compose_of_writes {s : State} {p : Phase} {pos : DigitPos} {r : Int} {ws : List (ChannelPos × Bool)}
    (h : composeWrites s.cfg p pos r = .ok ws) :
    exec (.compose (some p) pos r) s = .next (afterSuccess s (composedWord s.cfg ws)) := by
  rw [exec, execCompose, composeResult_of_writes h, complete_ok, composedWord]

/-- Two frame words side by side, as a number (R109). -/
theorem append_eq_ofNat (a b : BitVec 16) :
    a ++ b = BitVec.ofNat 32 (65536 * (a.setWidth 32).toNat + (b.setWidth 32).toNat) := by
  have hnum : a.toNat <<< 16 ||| b.toNat = 65536 * a.toNat + b.toNat := by
    rw [← Nat.shiftLeft_add_eq_or_of_lt b.isLt, Nat.shiftLeft_eq, Nat.mul_comm]
  refine BitVec.eq_of_toNat_eq ?_
  rw [BitVec.toNat_append, hnum, BitVec.toNat_setWidth_of_le (by decide), BitVec.toNat_setWidth_of_le (by decide),
    BitVec.toNat_ofNat, Nat.mod_eq_of_lt (by have := a.isLt; have := b.isLt; omega)]

/-- FRAME answers the words of both positions' write lists, P1's above P2's. -/
theorem exec_frame_of_writes {s : State} {p : Phase} {r : Int} {w₁ w₂ : List (ChannelPos × Bool)}
    (h₁ : composeWrites s.cfg p .p1 r = .ok w₁) (h₂ : composeWrites s.cfg p .p2 r = .ok w₂) :
    exec (.frame (some p) r) s = .next (afterSuccess s
      (BitVec.ofNat 32 (65536 * (composedWord s.cfg w₁).toNat + (composedWord s.cfg w₂).toNat))) := by
  rw [exec, execFrame, frameResult_of_writes h₁ h₂, complete_ok, append_eq_ofNat, composedWord, composedWord]

/-! ### Which writes a list holds (R104 to R106) -/

theorem colour_mem_colourWrites (c : Cfg) (p q : Phase) :
    (c.colPos[phaseIndex q], decide (q ≠ p)) ∈ colourWrites c p :=
  List.mem_map.2 ⟨q, by cases q <;> decide, rfl⟩

theorem segment_mem_segmentWrites (c : Cfg) (pattern : Pattern) {i j : Fin 7} (hij : j.val + i.val = 6) :
    (c.segPos[j], pattern.getLsbD i.val) ∈ segmentWrites c pattern := by
  obtain rfl : j = i.rev := Fin.ext (by rw [Fin.val_rev]; omega)
  exact List.mem_map.2 ⟨i, by revert i; decide, rfl⟩

/-- The positions of the writes of RED and GREEN are those of YELLOW and the segments'. -/
theorem showWrites_positions_eq (c : Cfg) (p : Phase) (pos : DigitPos) (d : Digit) :
    (showWrites c p pos d).map Prod.fst =
      (yellowWrites c).map Prod.fst ++ (segmentWrites c (segPattern c d)).map Prod.fst := rfl

/-- No write stands on an unmapped position (R23). -/
theorem not_mem_showWrites {c : Cfg} {k : ChannelPos} (hk : k ∉ positions c) (p : Phase) (pos : DigitPos) (d : Digit) :
    k ∉ (showWrites c p pos d).map Prod.fst :=
  mt (showWrites_positions c p pos d).mem_iff.1 hk

theorem not_mem_yellowWrites {c : Cfg} {k : ChannelPos} (hk : k ∉ positions c) : k ∉ (yellowWrites c).map Prod.fst := by
  intro h
  refine not_mem_showWrites hk .yellow .p1 0 ?_
  rw [showWrites_positions_eq]
  exact List.mem_append_left _ h

/-- In an accepted configuration YELLOW writes no segment position (R22, R107). -/
theorem segPos_not_mem_yellowWrites {c : Cfg} (hc : accepted c = true) (j : Fin 7) :
    c.segPos[j] ∉ (yellowWrites c).map Prod.fst := by
  intro hy
  have hs : c.segPos[j] ∈ (segmentWrites c (segPattern c 0)).map Prod.fst :=
    List.mem_map_of_mem (segment_mem_segmentWrites c _ (i := j.rev) (by rw [Fin.val_rev]; omega))
  have hnd := showWrites_nodup hc .yellow .p1 0
  rw [showWrites_positions_eq] at hnd
  exact (List.nodup_append.1 hnd).2.2 _ hy _ hs rfl

/-! ### The frame the writes compose (R103 to R107) -/

theorem composedFrame_yellowWrites {c : Cfg} (hc : accepted c = true) (pos : DigitPos) (r : Int) :
    ComposedFrame c .yellow pos r (composedWord c (yellowWrites c)) := by
  have hnd := yellowWrites_nodup hc
  exact {
    fits := composedWord_fits c _
    colour := fun q => channelOf_composedWord_of_mem c hnd (List.mem_append_left _ (colour_mem_colourWrites c .yellow q))
    tensEnable := channelOf_composedWord_of_mem c hnd (by simp [yellowWrites, blankWrites])
    onesEnable := channelOf_composedWord_of_mem c hnd (by simp [yellowWrites, blankWrites])
    segments := fun h => absurd rfl h
    blank := fun _ j => channelOf_composedWord_of_not_mem c (segPos_not_mem_yellowWrites hc j)
    unwritten := fun k hk => channelOf_composedWord_of_not_mem c (not_mem_yellowWrites hk) }

theorem composedFrame_showWrites {c : Cfg} (hc : accepted c = true) {p : Phase} (hp : p ≠ .yellow) (pos : DigitPos)
    {r : Int} {d : Digit} (hd : d.val = shownDigit pos r) :
    ComposedFrame c p pos r (composedWord c (showWrites c p pos d)) := by
  have hnd := showWrites_nodup hc p pos d
  have hmem {w : ChannelPos × Bool} (h : w ∈ colourWrites c p ++ digitEnableWrites c pos) : w ∈ showWrites c p pos d :=
    List.mem_append_left _ h
  exact {
    fits := composedWord_fits c _
    colour := fun q => channelOf_composedWord_of_mem c hnd (hmem (List.mem_append_left _ (colour_mem_colourWrites c p q)))
    tensEnable := channelOf_composedWord_of_mem c hnd (hmem (by simp [digitEnableWrites, hp]))
    onesEnable := channelOf_composedWord_of_mem c hnd (hmem (by simp [digitEnableWrites, hp]))
    segments := fun _ => by
      refine ⟨segPattern c d, ?_, fun i => ?_⟩
      · rw [← hd]; exact Vector.getElem?_eq_getElem d.isLt
      · have hsum : (6 - i.val) + i.val = 6 := by omega
        exact channelOf_composedWord_of_mem c hnd
          (List.mem_append_right _ (segment_mem_segmentWrites c _ (j := ⟨6 - i.val, by omega⟩) hsum))
    blank := fun h => absurd h hp
    unwritten := fun k hk => channelOf_composedWord_of_not_mem c (not_mem_showWrites hk p pos d) }

/-- In YELLOW, and in RED and GREEN for a countdown in 0..199, the composition of each position writes a list whose word is the
frame the rules say. -/
theorem exists_writes_composedFrame {c : Cfg} (hc : accepted c = true) {p : Phase} {r : Int}
    (h : p = .yellow ∨ (0 ≤ r ∧ r ≤ 199)) (pos : DigitPos) :
    ∃ ws, composeWrites c p pos r = .ok ws ∧ ComposedFrame c p pos r (composedWord c ws) := by
  by_cases hp : p = .yellow
  · subst hp
    exact ⟨_, composeWrites_yellow c pos r, composedFrame_yellowWrites hc pos r⟩
  · obtain ⟨h0, h1⟩ := h.resolve_left hp
    obtain ⟨d, hd, hw⟩ := composeWrites_of_shown c hp pos h0 h1
    exact ⟨_, hw, composedFrame_showWrites hc hp pos hd⟩

/-- Settles O34: the writes of the composition (`exists_writes_composedFrame`) are what COMPOSE answers. -/
theorem composeBuildsTheFrame : Obligations.ComposeBuildsTheFrame := by
  intro s p pos r hc h
  obtain ⟨ws, hw, hf⟩ := exists_writes_composedFrame hc h pos
  exact ⟨_, exec_compose_of_writes hw, hf⟩

/-! ### YELLOW (R107) -/

/-- The channels of YELLOW, position by position. -/
theorem channelOf_yellowWrites {c : Cfg} (hc : accepted c = true) (k : ChannelPos) :
    channelOf (composedWord c (yellowWrites c)) k =
      if k = c.colPos[2] then false
      else if k = c.colPos[0] ∨ k = c.colPos[1] then true
      else if k = c.denPos[0] ∨ k = c.denPos[1] then !c.denOn
      else c.initFill.getLsbD k.val := by
  have hf := composedFrame_yellowWrites hc .p1 0
  split_ifs with hyellow hother hden
  · rw [hyellow]; exact hf.colour .yellow
  · rcases hother with rfl | rfl
    · exact hf.colour .red
    · exact hf.colour .green
  · rcases hden with rfl | rfl
    · exact hf.tensEnable
    · exact hf.onesEnable
  · refine channelOf_composedWord_of_not_mem c ?_
    have hpos : (yellowWrites c).map Prod.fst =
        [c.colPos[0], c.colPos[1], c.colPos[2], c.denPos[0], c.denPos[1]] := rfl
    rw [hpos]
    simp only [List.mem_cons, List.not_mem_nil, or_false]
    tauto

/-- Settles O39: in YELLOW the write list reads neither the position nor the countdown (`composeWrites_yellow`). -/
theorem yellowBlanksTheDisplay : Obligations.YellowBlanksTheDisplay := by
  intro s hc
  refine ⟨composedWord s.cfg (yellowWrites s.cfg), fun pos r => ?_, fun r => ?_, composedWord_fits _ _,
    channelOf_yellowWrites hc⟩
  · exact exec_compose_of_writes (composeWrites_yellow s.cfg pos r)
  · rw [exec_frame_of_writes (composeWrites_yellow s.cfg .p1 r) (composeWrites_yellow s.cfg .p2 r), ← Nat.succ_mul]

end Sys2Proof.Machine
end

section
/-! PROOF. COMPOSE and FRAME from the request word to the state after it (R108, R109). -/

namespace Sys2Proof.Machine

theorem assemble_compose (R : Word) :
    assemble .compose R = .compose (phaseNumbered (R.toNat / 16 % 4)) (if R.toNat / 64 % 2 = 0 then .p1 else .p2)
      (signed16 (R.toNat / 65536)) := by
  rw [assemble, phaseOperand_eq, posOperand_eq, remainingOperand_eq]

theorem assemble_frame (R : Word) :
    assemble .frame R = .frame (phaseNumbered (R.toNat / 16 % 4)) (signed16 (R.toNat / 65536)) := by
  rw [assemble, phaseOperand_eq, remainingOperand_eq]

/-- A request whose class is a fault takes it (R134). -/
theorem exec_of_instrStatus {i : Instr} {f : StatusCode} (hi : instrStatus i = f) (hf : f ≠ 0#3) (s : State) :
    exec i s = .next (afterFault s f) := by
  subst hi
  exact (exec_endsWithStatus i s).2 hf

/-- PHASE 3 is BAD_PHASE, whatever the countdown (R135). -/
theorem phaseStatus_of_phase_three {k : Nat} (h : k = 3) (r : Int) : phaseStatus (phaseNumbered k) r = 3#3 := by
  subst h; rfl

/-- In RED and GREEN a REM field of 200 or more is DISPLAY_RANGE (R108). -/
theorem phaseStatus_of_not_shown {k n : Nat} (hk : k ≤ 1) (h : 200 ≤ n) (hn : n < 65536) :
    phaseStatus (phaseNumbered k) (signed16 n) = 5#3 := by
  rw [phaseStatus_phaseNumbered (by omega), if_neg (by omega), if_neg (by omega), countdownStatus_signed16 hn, if_pos h]

/-- Settles O36: the must-be-zero bits first, then the class of the phase and the countdown, then the frame of the write list. -/
theorem composeRequest : Obligations.ComposeRequest := by
  intro s R rest hc h h4
  have hop : opNumbered (R.toNat % 16) = some .compose := congrArg opNumbered h4
  have hclear : mustBeZeroClear .compose R = true ↔ R.toNat / 128 % 512 = 0 := mustBeZeroClear_iff .compose R
  have hrun (hz : R.toNat / 128 % 512 = 0) : step s =
      exec (.compose (phaseNumbered (R.toNat / 16 % 4)) (if R.toNat / 64 % 2 = 0 then .p1 else .p2)
        (signed16 (R.toNat / 65536))) (withRequests s rest) := by
    rw [step_of_clear h hop (hclear.2 hz), assemble_compose]
  refine ⟨fun hz => ?_, fun hz hp => ?_, fun hz hp hr => ?_, fun p hz hp hr => ?_⟩
  · exact step_of_reserved h hop (mt hclear.1 hz)
  · exact (hrun hz).trans (exec_of_instrStatus (i := .compose _ _ _) (phaseStatus_of_phase_three hp _) (by decide) _)
  · exact (hrun hz).trans (exec_of_instrStatus (i := .compose _ _ _) (phaseStatus_of_not_shown hp hr (remField_lt R)) (by decide) _)
  · obtain ⟨ws, hw, hf⟩ := exists_writes_composedFrame hc (hr.imp_right signed16_shown) _
    refine ⟨_, ?_, hf⟩
    rw [hrun hz, hp]
    exact exec_compose_of_writes hw

/-- Settles O38: as `composeRequest`, with the write lists of both positions. -/
theorem frameRequest : Obligations.FrameRequest := by
  intro s R rest hc h h5
  have hop : opNumbered (R.toNat % 16) = some .frame := congrArg opNumbered h5
  have hclear : mustBeZeroClear .frame R = true ↔ R.toNat / 64 % 1024 = 0 := mustBeZeroClear_iff .frame R
  have hrun (hz : R.toNat / 64 % 1024 = 0) : step s =
      exec (.frame (phaseNumbered (R.toNat / 16 % 4)) (signed16 (R.toNat / 65536))) (withRequests s rest) := by
    rw [step_of_clear h hop (hclear.2 hz), assemble_frame]
  refine ⟨fun hz => ?_, fun hz hp => ?_, fun hz hp hr => ?_, fun p hz hp hr => ?_⟩
  · exact step_of_reserved h hop (mt hclear.1 hz)
  · exact (hrun hz).trans (exec_of_instrStatus (i := .frame _ _) (phaseStatus_of_phase_three hp _) (by decide) _)
  · exact (hrun hz).trans (exec_of_instrStatus (i := .frame _ _) (phaseStatus_of_not_shown hp hr (remField_lt R)) (by decide) _)
  · obtain ⟨w₁, hw₁, hf₁⟩ := exists_writes_composedFrame hc (hr.imp_right signed16_shown) .p1
    obtain ⟨w₂, hw₂, hf₂⟩ := exists_writes_composedFrame hc (hr.imp_right signed16_shown) .p2
    refine ⟨_, _, ?_, hf₁, hf₂⟩
    rw [hrun hz, hp]
    exact exec_frame_of_writes hw₁ hw₂

end Sys2Proof.Machine
end

section
/-! PROOF. What every request leaves in RESP (R24, R133), and which operands raise which value fault (R134). -/

namespace Sys2Proof.Machine

/-! ### RESP after a request (R133) -/

/-- Settles O15: a word of status 0 leaves a number in RESP_DATA, and a word of any other status leaves no value there. -/
theorem everyRequestWritesTheResponse : Obligations.EveryRequestWritesTheResponse := by
  intro s R rest h
  obtain ⟨hok, hfault⟩ := step_endsWithStatus h
  by_cases hc : expectedStatus R = 0#3
  · obtain ⟨data, ht⟩ := hok hc
    exact ⟨_, ht, rfl, .inl ⟨rfl, data, rfl, rfl⟩⟩
  · exact ⟨_, hfault hc, rfl, .inr ⟨hc, rfl, rfl⟩⟩

/-! ### The operands behind each status (R134) -/

/-- A request leaves the status of its class in RESP_STATUS. -/
theorem respStatus_of_exec {i : Instr} {s t : State} (h : exec i s = .next t) : t.respStatus = instrStatus i := by
  obtain ⟨hok, hfault⟩ := exec_endsWithStatus i s
  by_cases hc : instrStatus i = 0#3
  · obtain ⟨data, ht⟩ := hok hc
    rw [ht] at h; cases h
    exact hc.symm
  · rw [hfault hc] at h; cases h
    rfl

theorem countdownStatus_eq_five_iff (r : Int) : countdownStatus r = 5#3 ↔ r < 0 ∨ 199 < r := by
  rcases shown_or_not_shown r with h | h
  · exact iff_of_false (by rw [countdownStatus_of_shown h]; decide) (by omega)
  · exact iff_of_true (countdownStatus_of_not_shown h) h

/-- A countdown raises no other fault than DISPLAY_RANGE. -/
theorem countdownStatus_legal (r : Int) : countdownStatus r = 0#3 ∨ countdownStatus r = 5#3 :=
  (shown_or_not_shown r).imp countdownStatus_of_shown countdownStatus_of_not_shown

theorem countdownStatus_ne {c : StatusCode} (h0 : c ≠ 0#3) (h5 : c ≠ 5#3) (r : Int) : countdownStatus r ≠ c := by
  rcases countdownStatus_legal r with h | h <;> rw [h]
  · exact h0.symm
  · exact h5.symm

/-- The countdown is split in RED and GREEN alone (R107). -/
theorem phaseStatus_some (p : Phase) (r : Int) :
    phaseStatus (some p) r = if p = .yellow then 0#3 else countdownStatus r := by
  cases p <;> rfl

/-- A composition raises BAD_PHASE or DISPLAY_RANGE, if anything. -/
theorem phaseStatus_legal (ph : Option Phase) (r : Int) :
    phaseStatus ph r = 0#3 ∨ phaseStatus ph r = 3#3 ∨ phaseStatus ph r = 5#3 := by
  cases ph with
  | none => exact .inr (.inl rfl)
  | some p =>
    rw [phaseStatus_some]
    split_ifs
    · exact .inl rfl
    · exact (countdownStatus_legal r).imp_right .inr

theorem phaseStatus_eq_three_iff (ph : Option Phase) (r : Int) : phaseStatus ph r = 3#3 ↔ ph = none := by
  cases ph with
  | none => exact iff_of_true rfl rfl
  | some p =>
    refine iff_of_false ?_ nofun
    rw [phaseStatus_some]
    split_ifs
    · decide
    · exact countdownStatus_ne (by decide) (by decide) r

theorem phaseStatus_eq_five_iff (ph : Option Phase) (r : Int) :
    phaseStatus ph r = 5#3 ↔ (r < 0 ∨ 199 < r) ∧ ∃ p, p ≠ .yellow ∧ ph = some p := by
  cases ph with
  | none => simp [phaseStatus]
  | some p =>
    by_cases hp : p = .yellow
    · simp [phaseStatus_some, hp]
    · simp [phaseStatus_some, countdownStatus_eq_five_iff, hp]

/-- No request raises a decode fault or an unused code. -/
theorem instrStatus_legal (i : Instr) :
    instrStatus i = 0#3 ∨ instrStatus i = 3#3 ∨ instrStatus i = 4#3 ∨ instrStatus i = 5#3 := by
  cases i with
  | encode d =>
    rw [instrStatus]
    split_ifs
    · exact .inr (.inr (.inl rfl))
    · exact .inl rfl
  | pack ch => exact .inl rfl
  | unpack a b => exact .inl rfl
  | split r => exact (countdownStatus_legal r).imp_right fun h => .inr (.inr h)
  | compose ph pos r => exact (phaseStatus_legal ph r).imp_right (Or.imp_right .inr)
  | frame ph r => exact (phaseStatus_legal ph r).imp_right (Or.imp_right .inr)

/-- DIGIT_RANGE is ENCODE's alone. -/
theorem instrStatus_eq_four_iff (i : Instr) : instrStatus i = 4#3 ↔ ∃ d, i = .encode d ∧ 10 ≤ d := by
  have hphase (ph : Option Phase) (r : Int) : phaseStatus ph r ≠ 4#3 := by
    rcases phaseStatus_legal ph r with h | h | h <;> rw [h] <;> decide
  cases i with
  | encode d => simp [instrStatus]
  | pack ch => simp [instrStatus]
  | unpack a b => simp [instrStatus]
  | split r => simp [instrStatus, countdownStatus_ne]
  | compose ph pos r => simp [instrStatus, hphase]
  | frame ph r => simp [instrStatus, hphase]

/-- BAD_PHASE is PHASE 3 in COMPOSE and FRAME, whatever the countdown. -/
theorem instrStatus_eq_three_iff (i : Instr) :
    instrStatus i = 3#3 ↔ (∃ pos r, i = .compose none pos r) ∨ ∃ r, i = .frame none r := by
  cases i with
  | encode d => simp [instrStatus, ite_eq_iff]
  | pack ch => simp [instrStatus]
  | unpack a b => simp [instrStatus]
  | split r => simp [instrStatus, countdownStatus_ne]
  | compose ph pos r => simp [instrStatus, phaseStatus_eq_three_iff]
  | frame ph r => simp [instrStatus, phaseStatus_eq_three_iff]

/-- DISPLAY_RANGE is a countdown outside 0..199 that SPLIT, or COMPOSE or FRAME in RED or GREEN, has to split. -/
theorem instrStatus_eq_five_iff (i : Instr) :
    instrStatus i = 5#3 ↔ ∃ r : Int, (r < 0 ∨ 199 < r) ∧
      (i = .split r ∨ ∃ p, p ≠ Phase.yellow ∧ ((∃ pos, i = .compose (some p) pos r) ∨ i = .frame (some p) r)) := by
  cases i with
  | encode d => simp [instrStatus, ite_eq_iff]
  | pack ch => simp [instrStatus]
  | unpack a b => simp [instrStatus]
  | split r => simp [instrStatus, countdownStatus_eq_five_iff]
  | compose ph pos r => simp [instrStatus, phaseStatus_eq_five_iff, and_comm]
  | frame ph r => simp [instrStatus, phaseStatus_eq_five_iff, and_comm]

/-- Settles O19: a request leaves the status of its class (`respStatus_of_exec`), and each class has its operands. -/
theorem valueFaultsOnlyWhereStated : Obligations.ValueFaultsOnlyWhereStated := by
  intro i s t h
  rw [respStatus_of_exec h]
  exact ⟨instrStatus_legal i, instrStatus_eq_four_iff i, instrStatus_eq_three_iff i, instrStatus_eq_five_iff i⟩

end Sys2Proof.Machine
end

section
/-! PROOF. The round trip of encoder and decoder (R62 to R66, R69, R73): the operands read back out of an encoded word, and a
word put together again from its fields. -/

namespace Sys2Proof.Machine

open BitVec

/-! ### The fields of a word (R62 to R66) -/

/-- The OP field of an encoded word is that of its operation (R61). -/
theorem opNumber_eq_opCode (i : Instr) : opNumber i = opCode (opOf i) := by cases i <;> rfl

theorem phaseOfField_phaseField (ph : Option Phase) : phaseOfField (phaseField ph) = ph := by
  match ph with
  | none | some .red | some .green | some .yellow => rfl

theorem phaseField_phaseOfField (f : BitVec 2) : phaseField (phaseOfField f) = f := by
  revert f; decide

/-- POS is bit 6 of the word (R66). -/
theorem posField_posOperand (R : Word) : posField (posOperand R) = R.extractLsb' 6 1 := by
  have hfield : R.extractLsb' 6 1 = BitVec.ofBool (R.getLsbD 6) := by
    refine BitVec.eq_of_getLsbD_eq fun i hi => ?_
    obtain rfl : i = 0 := by omega
    simp
  rw [hfield, posOperand]
  cases R.getLsbD 6 <;> rfl

/-- A POS field names one position (R12). -/
theorem posOperand_of_field {R : Word} {pos : DigitPos} (h : R.extractLsb' 6 1 = posField pos) : posOperand R = pos := by
  rw [← posField_posOperand] at h
  revert h
  cases posOperand R <;> cases pos <;> decide

/-- REM holds its 16 bits in two's complement (R68). -/
theorem toInt_ofInt_of_remainingFits {r : Int} (h : remainingFits r = true) : (BitVec.ofInt 16 r).toInt = r := by
  obtain ⟨hlo, hhi⟩ := of_decide_eq_true h
  exact BitVec.toInt_ofInt_eq_self (by decide) hlo (by omega)

theorem remainingFits_remainingOperand (R : Word) : remainingFits (remainingOperand R) = true := by
  rw [remainingOperand_eq]
  exact decide_eq_true (signed16_range (remField_lt R))

/-! ### Decoding an encoded word -/

/-- The word of a request satisfies its row of opcode_table.json. -/
theorem rowMatch (i : Instr) : Laws.RowMatch.Statement i := by
  cases i with
  | encode d => exact Laws.RowMatch.encode d
  | pack ch => exact Laws.RowMatch.pack ch
  | unpack a b => exact Laws.RowMatch.unpack a b
  | split r => exact Laws.RowMatch.split r
  | compose ph pos r => exact Laws.RowMatch.compose ph pos r
  | frame ph r => exact Laws.RowMatch.frame ph r

/-- Decoding answers the assembled operands of the operation it reaches. -/
theorem eq_assemble_of_decode {R : Word} {i : Instr} (h : decode R = .ok i) : i = assemble (opOf i) R := by
  rcases decode_cases R with ⟨hd, -⟩ | ⟨op, -, ⟨hd, -⟩ | ⟨hd, -⟩⟩ <;> rw [hd] at h <;> cases h
  rw [opOf_assemble]

/-- Decoding the word of a request reaches its operation and assembles the operands. -/
theorem decode_encode_eq_assemble (i : Instr) : decode (encode i) = .ok (assemble (opOf i) (encode i)) := by
  have hrow : Laws.RowMatch.row (assemble (opOf i) (encode i)) = Laws.RowMatch.row i := by cases i <;> rfl
  obtain ⟨j, hj, hop⟩ := (decode_reaches_iff_row (opOf i) (encode i)).2 (by rw [hrow]; exact rowMatch i)
  rw [hj, ← hop, ← eq_assemble_of_decode hj]

/-- The operands read out of the word of a well-formed request are its own (R68). -/
theorem assemble_encode {i : Instr} (h : i.wellFormed = true) : assemble (opOf i) (encode i) = i := by
  cases i with
  | encode d =>
    have hd : d < 2 ^ 4 := Nat.lt_succ_of_le (of_decide_eq_true h)
    have hfield : (encode (.encode d)).extractLsb' 4 4 = BitVec.ofNat 4 d := by
      simp (disch := decide) only [encode, extractLsb'_append_eq_of_le, extractLsb'_append_eq_of_add_le, Nat.reduceSub,
        extractLsb'_eq_self]
    rw [opOf, assemble, digitOperand, hfield, toNat_ofNat, Nat.mod_eq_of_lt hd]
  | pack ch =>
    simp (disch := decide) only [opOf, assemble, channelsOperand, encode, extractLsb'_append_eq_of_le, Nat.reduceSub,
      extractLsb'_eq_self]
  | unpack a b =>
    simp (disch := decide) only [opOf, assemble, byteAOperand, byteBOperand, encode, extractLsb'_append_eq_of_le,
      extractLsb'_append_eq_of_add_le, Nat.reduceSub, extractLsb'_eq_self]
  | split r =>
    simp (disch := decide) only [opOf, assemble, remainingOperand, encode, extractLsb'_append_eq_of_le, Nat.reduceSub,
      extractLsb'_eq_self, toInt_ofInt_of_remainingFits h]
  | compose ph pos r =>
    have hpos : (encode (.compose ph pos r)).extractLsb' 6 1 = posField pos := by
      simp (disch := decide) only [encode, extractLsb'_append_eq_of_le, extractLsb'_append_eq_of_add_le, Nat.reduceSub,
        extractLsb'_eq_self]
    rw [opOf, assemble, posOperand_of_field hpos]
    simp (disch := decide) only [phaseOperand, remainingOperand, encode, extractLsb'_append_eq_of_le,
      extractLsb'_append_eq_of_add_le, Nat.reduceSub, extractLsb'_eq_self, phaseOfField_phaseField,
      toInt_ofInt_of_remainingFits h]
  | frame ph r =>
    simp (disch := decide) only [opOf, assemble, phaseOperand, remainingOperand, encode, extractLsb'_append_eq_of_le,
      extractLsb'_append_eq_of_add_le, Nat.reduceSub, extractLsb'_eq_self, phaseOfField_phaseField,
      toInt_ofInt_of_remainingFits h]

/-- Settles O3: the word's row names the operation (`decode_encode_eq_assemble`), and its fields hold the operands
(`assemble_encode`). -/
theorem decodeOfEncodeIsTheRequest : Obligations.DecodeOfEncodeIsTheRequest := fun i h => by
  rw [decode_encode_eq_assemble, assemble_encode h]

/-! ### Encoding a decoded word -/

/-- Assembled operands lie in the ranges of R72. -/
theorem assemble_wellFormed (op : Op) (R : Word) : (assemble op R).wellFormed = true := by
  cases op with
  | encode => exact decide_eq_true (Nat.le_of_lt_succ (R.extractLsb' 4 4).isLt)
  | pack => rfl
  | unpack => rfl
  | split => exact remainingFits_remainingOperand R
  | compose => exact remainingFits_remainingOperand R
  | frame => exact remainingFits_remainingOperand R

/-- A word that reaches an operation is its fields side by side: operands, must-be-zero bits and OP. -/
theorem encode_assemble {op : Op} {R : Word} (hop : opField R = opCode op) (hm : mustBeZeroClear op R = true) :
    encode (assemble op R) = R := by
  have hnum : opNumber (assemble op R) = R.extractLsb' 0 4 := by rw [opNumber_eq_opCode, opOf_assemble, ← hop, opField]
  replace hm := ((mustBeZeroClear_iff_extract op R).1 hm).symm
  cases op with
  | encode =>
    have hzero : 0#24 = R.extractLsb' 8 24 := hm
    rw [assemble] at hnum ⊢
    rw [encode, hnum, hzero, digitOperand, ofNat_toNat, setWidth_eq]
    simp (disch := decide) only [extractLsb'_append_extractLsb'_eq_extractLsb', extractLsb'_eq_self]
  | pack =>
    have hzero : 0#12 = R.extractLsb' 4 12 := hm
    rw [assemble] at hnum ⊢
    rw [encode, hnum, hzero, channelsOperand]
    simp (disch := decide) only [extractLsb'_append_extractLsb'_eq_extractLsb', extractLsb'_eq_self]
  | unpack =>
    have hzero : 0#12 = R.extractLsb' 4 12 := hm
    rw [assemble] at hnum ⊢
    rw [encode, hnum, hzero, byteAOperand, byteBOperand]
    simp (disch := decide) only [extractLsb'_append_extractLsb'_eq_extractLsb', extractLsb'_eq_self]
  | split =>
    have hzero : 0#12 = R.extractLsb' 4 12 := hm
    rw [assemble] at hnum ⊢
    rw [encode, hnum, hzero, remainingOperand, ofInt_toInt]
    simp (disch := decide) only [extractLsb'_append_extractLsb'_eq_extractLsb', extractLsb'_eq_self]
  | compose =>
    have hzero : 0#9 = R.extractLsb' 7 9 := hm
    rw [assemble] at hnum ⊢
    rw [encode, hnum, hzero, remainingOperand, ofInt_toInt, posField_posOperand, phaseOperand, phaseField_phaseOfField]
    simp (disch := decide) only [extractLsb'_append_extractLsb'_eq_extractLsb', extractLsb'_eq_self]
  | frame =>
    have hzero : 0#10 = R.extractLsb' 6 10 := hm
    rw [assemble] at hnum ⊢
    rw [encode, hnum, hzero, remainingOperand, ofInt_toInt, phaseOperand, phaseField_phaseOfField]
    simp (disch := decide) only [extractLsb'_append_extractLsb'_eq_extractLsb', extractLsb'_eq_self]

/-- Settles O4: decoding answers the assembled operands (`eq_assemble_of_decode`), which fit their fields and encode back to
them. -/
theorem encodeOfDecodedIsTheWord : Obligations.EncodeOfDecodedIsTheWord := by
  intro R i h
  obtain ⟨hop, hm⟩ := (decode_reaches_iff (opOf i) R).1 ⟨i, h, rfl⟩
  rw [eq_assemble_of_decode h]
  exact ⟨assemble_wellFormed _ R, encode_assemble ((opOfField_eq_some_iff _ _).1 hop) hm⟩

/-! ### Written-out words -/

/-- Settles O5: the decoder evaluated on nine fixed words. -/
theorem writtenOutWordsDecode : Obligations.WrittenOutWordsDecode := by
  unfold Obligations.WrittenOutWordsDecode
  decide

end Sys2Proof.Machine
end

section
/-! PROOF. Construction (R22, R32, R136) and the invariant of the machine: every construction gives it and every step keeps
it. -/

namespace Sys2Proof.Machine

/-! ### Construction (R22, R136) -/

/-- Settles O7: `argsAccepted` is the condition (`argsAccepted_iff`), and construction refuses exactly where it fails. -/
theorem constructionRefusesExactlyBadArguments : Obligations.ConstructionRefusesExactlyBadArguments := by
  intro a
  have hiff := argsAccepted_iff a
  rw [argPositions] at hiff
  rcases construct_cases a with ⟨ha, hc⟩ | ⟨ha, hc⟩
  · obtain ⟨⟨hpos, hrest⟩, hnd⟩ := hiff.1 ha
    exact ⟨fun _ => ⟨_, hc, accepted_cfgOfArgs ha⟩, fun hbad => absurd ⟨hpos, hnd, hrest⟩ hbad⟩
  · refine ⟨fun ⟨hpos, hnd, hrest⟩ => ?_, fun _ => hc⟩
    rw [hiff.2 ⟨⟨hpos, hrest⟩, hnd⟩] at ha
    cases ha

/-! ### The invariant -/

/-- The state of R32 meets the invariant for every accepted configuration. -/
theorem inv_afterConstruction {c : Cfg} (h : accepted c = true) : Inv (State.afterConstruction c) where
  cfgAccepted := h
  dataIffSuccess := iff_of_false nofun (fun hv => nomatch hv.1)
  statusLegal := Nat.zero_le 5
  firstFaultLegal := Nat.zero_le 5
  faultedIffCode := iff_of_false nofun (fun h0 => h0 rfl)
  statusRecorded := fun h0 => absurd rfl h0
  quietBeforeFirst := fun _ => ⟨rfl, rfl⟩

/-- The invariant does not speak of the presented words. -/
theorem inv_withRequests {s : State} (h : Inv s) (rest : List Word) : Inv (withRequests s rest) where
  cfgAccepted := h.cfgAccepted
  dataIffSuccess := h.dataIffSuccess
  statusLegal := h.statusLegal
  firstFaultLegal := h.firstFaultLegal
  faultedIffCode := h.faultedIffCode
  statusRecorded := h.statusRecorded
  quietBeforeFirst := h.quietBeforeFirst

/-- A success leaves a value with status 0 and the fault record as it was (R24). -/
theorem inv_afterSuccess {s : State} (h : Inv s) (data : Word) : Inv (afterSuccess s data) where
  cfgAccepted := h.cfgAccepted
  dataIffSuccess := iff_of_true rfl ⟨rfl, rfl⟩
  statusLegal := Nat.zero_le 5
  firstFaultLegal := h.firstFaultLegal
  faultedIffCode := h.faultedIffCode
  statusRecorded := fun h0 => absurd rfl h0
  quietBeforeFirst := nofun

/-- A fault over a recorded one leaves the record (R130). -/
theorem firstFault_afterFault_of_faulted {s : State} (h : s.faulted = true) (f : StatusCode) :
    (afterFault s f).firstFault = s.firstFault := by
  rw [afterFault_firstFault, h, cond_true]

/-- The first fault is the one recorded (R130). -/
theorem firstFault_afterFault_of_clear {s : State} (h : s.faulted = false) (f : StatusCode) :
    (afterFault s f).firstFault = f := by
  rw [afterFault_firstFault, h, cond_false]

/-- A fault leaves no value, and a record that is not empty (R130). -/
theorem inv_afterFault {s : State} (h : Inv s) (f : RequestFault) : Inv (afterFault s (faultCode f)) where
  cfgAccepted := h.cfgAccepted
  dataIffSuccess := iff_of_false nofun (fun hv => faultCode_ne_zero f hv.2)
  statusLegal := faultCode_le_five f
  firstFaultLegal := by
    cases hs : s.faulted
    · rw [firstFault_afterFault_of_clear hs]; exact faultCode_le_five f
    · rw [firstFault_afterFault_of_faulted hs]; exact h.firstFaultLegal
  faultedIffCode := iff_of_true rfl (by
    cases hs : s.faulted
    · rw [firstFault_afterFault_of_clear hs]; exact faultCode_ne_zero f
    · rw [firstFault_afterFault_of_faulted hs]; exact h.faultedIffCode.1 hs)
  statusRecorded := fun _ => rfl
  quietBeforeFirst := nofun

/-- Settles O13: a step is idle or ends in one success or one fault (`step_cases`), and each keeps the invariant. -/
theorem everyStepKeepsTheInvariant : Obligations.EveryStepKeepsTheInvariant := by
  intro s t hs h
  rcases step_cases h with ⟨-, rfl⟩ | ⟨R, rest, -, ⟨d, rfl⟩ | ⟨f, rfl⟩⟩
  · exact hs
  · exact inv_afterSuccess (inv_withRequests hs rest) d
  · exact inv_afterFault (inv_withRequests hs rest) f

/-- Settles O10: a construction that answers has accepted its arguments. -/
theorem constructedStatesMeetTheInvariant : Obligations.ConstructedStatesMeetTheInvariant := by
  intro a s h
  rcases construct_cases a with ⟨ha, hc⟩ | ⟨-, hc⟩ <;> rw [hc] at h <;> cases h
  exact inv_afterConstruction (accepted_cfgOfArgs ha)

/-- The construction arguments that hold the values of a configuration. -/
def argsOfCfg (c : Cfg) : ConstructionArgs where
  segPos := c.segPos.map Fin.val
  denPos := c.denPos.map Fin.val
  colPos := c.colPos.map Fin.val
  segTable := c.segTable.map BitVec.toNat
  denOn := c.denOn.toNat
  initFill := c.initFill.toNat

/-- Narrowing undoes reading a register as a number. -/
theorem narrow_map {α : Type} {n : Nat} {f : Nat → α} {g : α → Nat} (hfg : ∀ x, f (g x) = x) (v : Vector α n) :
    narrow f (v.map g) = v :=
  Vector.ext fun j hj => by rw [getElem_narrow, Vector.getElem_map, hfg]

theorem cfgOfArgs_argsOfCfg (c : Cfg) : cfgOfArgs (argsOfCfg c) = c := by
  have hden : (c.denOn.toNat == 1) = c.denOn := by cases c.denOn <;> rfl
  have hpos {n : Nat} (v : Vector ChannelPos n) : narrow (Fin.ofNat 16) (v.map Fin.val) = v :=
    narrow_map Fin.ofNat_val_eq_self v
  have htable : narrow (BitVec.ofNat 7) (c.segTable.map BitVec.toNat) = c.segTable :=
    narrow_map (fun p => (BitVec.ofNat_toNat 7 p).trans (BitVec.setWidth_eq p)) c.segTable
  simp only [cfgOfArgs, argsOfCfg, hpos, htable, hden, BitVec.ofNat_toNat, BitVec.setWidth_eq]

theorem argsAccepted_argsOfCfg {c : Cfg} (h : accepted c = true) : argsAccepted (argsOfCfg c) = true := by
  have hpos : argPositions (argsOfCfg c) = (positions c).map Fin.val := by
    simp only [argPositions, argsOfCfg, positions, Vector.toList_map, List.map_append]
  rw [argsAccepted_iff, hpos]
  refine ⟨⟨?_, ?_, Bool.toNat_lt _, c.initFill.isLt⟩, (of_decide_eq_true h).map Fin.val_injective⟩
  · exact List.forall_mem_map.2 fun k _ => k.isLt
  · rw [argsOfCfg, Vector.toList_map]
    exact List.forall_mem_map.2 fun p _ => p.isLt

/-- Every accepted configuration is one that a construction gives (R22, R150). -/
theorem construct_argsOfCfg {c : Cfg} (h : accepted c = true) :
    construct (argsOfCfg c) = .next (State.afterConstruction c) := by
  rw [construct, if_pos (argsAccepted_argsOfCfg h), cfgOfArgs_argsOfCfg]

/-- Settles O9: the reset configuration is accepted, so its values are the arguments of a construction. -/
theorem resetIsAConstruction : Obligations.ResetIsAConstruction :=
  ⟨argsOfCfg Config.resetCfg, construct_argsOfCfg (by decide)⟩

/-- Settles O8: State.reset is a constructed state. -/
theorem resetMeetsTheInvariant : Obligations.ResetMeetsTheInvariant := by
  obtain ⟨a, ha⟩ := resetIsAConstruction
  exact constructedStatesMeetTheInvariant a State.reset ha

end Sys2Proof.Machine
end

section
/-! PROOF. What a step and a request change and leave unchanged (R21, R25, R51, R130), what a response
depends on (R30), and ENCODE on its operand (R80). -/

namespace Sys2Proof.Machine

/-! ### Steps (R25, R51) -/

/-- Settles O11: serving a word runs what it decodes to or takes its decode fault. -/
theorem stepRunsTheDecodedRequest : Obligations.StepRunsTheDecodedRequest := by
  intro s R rest h
  rw [step_of_cons h]
  exact ⟨fun i hi => serve_of_ok hi _, fun hd => serve_of_error hd _, fun hd => serve_of_error hd _⟩

/-- Settles O12: the first arm of `step`. -/
theorem stepWithoutRequestIsIdle : Obligations.StepWithoutRequestIsIdle := fun _ h => step_of_nil h

/-- Settles O17: a success and a fault write RESP and the fault record alone. -/
theorem stepNeverWritesConfiguration : Obligations.StepNeverWritesConfiguration := by
  intro s t h
  rcases step_cases h with ⟨hr, rfl⟩ | ⟨R, rest, hr, ⟨d, rfl⟩ | ⟨f, rfl⟩⟩ <;> rw [hr]
  · exact ⟨rfl, rfl⟩
  · exact ⟨rfl, rfl⟩
  · exact ⟨rfl, rfl⟩

/-- Settles O16: a success leaves the fault record and a fault writes FIRST_FAULT only where none is recorded. -/
theorem faultRecordIsSticky : Obligations.FaultRecordIsSticky := by
  intro s t h
  rcases step_cases h with ⟨hr, rfl⟩ | ⟨R, rest, -, ⟨d, rfl⟩ | ⟨f, rfl⟩⟩
  · exact ⟨fun hs => ⟨hs, rfl⟩, fun _ hne => absurd hr hne, fun _ hne => absurd hr hne⟩
  · exact ⟨fun hs => ⟨hs, rfl⟩, fun _ _ hc => absurd rfl hc, fun hs _ _ => ⟨hs, rfl⟩⟩
  · exact ⟨fun hs => ⟨rfl, firstFault_afterFault_of_faulted (s := withRequests s rest) hs _⟩,
      fun hs _ _ => ⟨rfl, firstFault_afterFault_of_clear (s := withRequests s rest) hs _⟩,
      fun _ _ hc => absurd hc (faultCode_ne_zero f)⟩

/-! ### Requests (R24, R49, R130) -/

/-- Settles O18: a request ends in one success or one fault (`exec_cases`). -/
theorem requestFrame : Obligations.RequestFrame := by
  intro i s t h
  rcases exec_cases i s with ⟨d, e⟩ | ⟨f, e⟩ <;> rw [e] at h <;> cases h
  · exact ⟨rfl, rfl, fun _ => ⟨rfl, rfl⟩, fun hs => ⟨hs, rfl⟩⟩
  · exact ⟨rfl, rfl, fun hc => absurd hc (faultCode_ne_zero f), fun hs => ⟨rfl, firstFault_afterFault_of_faulted hs _⟩⟩

theorem afterFault_afterFault (s : State) (f : StatusCode) : afterFault (afterFault s f) f = afterFault s f := by
  have h : (afterFault (afterFault s f) f).firstFault = (afterFault s f).firstFault :=
    firstFault_afterFault_of_faulted rfl f
  exact congrArg (fun code => { afterFault s f with firstFault := code }) h

/-- Settles O21: the result is read from CFG (`exec_reads_cfg`), which the first request leaves, and writing it twice is
writing it once. -/
theorem requestsAreIdempotent : Obligations.RequestsAreIdempotent := by
  intro i s t h
  obtain ⟨result, hexec⟩ := exec_reads_cfg i
  rw [hexec s] at h
  rcases complete_cases (result s.cfg) s with ⟨d, hres, e⟩ | ⟨f, hres, e⟩ <;> rw [e] at h <;> cases h
  · rw [hexec, afterSuccess_cfg, hres, complete_ok]; rfl
  · rw [hexec, afterFault_cfg, hres, complete_error, afterFault_afterFault]

/-! ### What a response depends on (R30) -/

/-- The two states show the same response. -/
structure SameResponse (t u : State) : Prop where
  valid : t.respValid = u.respValid
  status : t.respStatus = u.respStatus
  data : t.respData = u.respData

/-- A result leaves its response, whatever the state. -/
theorem complete_response (res : Except RequestFault Word) (s s' : State) :
    ∃ t u, complete res s = .next t ∧ complete res s' = .next u ∧ SameResponse t u := by
  cases res with
  | ok d => exact ⟨_, _, rfl, rfl, rfl, rfl, rfl⟩
  | error f => exact ⟨_, _, rfl, rfl, rfl, rfl, rfl⟩

/-- Settles O20: the result is read from CFG alone. -/
theorem resultDependsOnConfigurationAlone : Obligations.ResultDependsOnConfigurationAlone := by
  intro i s₁ s₂ t₁ t₂ hcfg h₁ h₂
  obtain ⟨result, hexec⟩ := exec_reads_cfg i
  obtain ⟨t, u, ht, hu, hresp⟩ := complete_response (result s₁.cfg) s₁ s₂
  rw [hexec, ht] at h₁
  rw [hexec, ← hcfg, hu] at h₂
  cases h₁; cases h₂
  exact ⟨hresp.status, hresp.data, hresp.valid⟩

/-- Serving a word reads CFG alone. -/
theorem serve_reads_cfg (R : Word) :
    ∃ result : Cfg → Except RequestFault Word, ∀ s, serve R s = complete (result s.cfg) s := by
  cases h : decode R with
  | ok i =>
    obtain ⟨result, hexec⟩ := exec_reads_cfg i
    exact ⟨result, fun s => (serve_of_ok h s).trans (hexec s)⟩
  | error f => exact ⟨fun _ => .error f, serve_of_error h⟩

/-- With one word presented, two states of one configuration step to the same response. -/
theorem step_response {s s' : State} {R : Word} (h : s.requests = [R]) (h' : s'.requests = [R]) (hcfg : s.cfg = s'.cfg) :
    ∃ t u, step s = .next t ∧ step s' = .next u ∧ SameResponse t u := by
  obtain ⟨result, hserve⟩ := serve_reads_cfg R
  rw [step_of_cons h, step_of_cons h', hserve, hserve, withRequests_cfg, withRequests_cfg, hcfg]
  exact complete_response _ _ _

/-- A run over the words before the last one comes to a state of the same configuration with the last one presented. -/
theorem run_to_last_word (earlier : List Word) {R : Word} {s : State} (h : s.requests = earlier ++ [R]) :
    ∃ v : State, v.requests = [R] ∧ v.cfg = s.cfg ∧
      Host.Core.run core (earlier.length + 1) s = Host.Core.run core 1 v := by
  induction earlier generalizing s with
  | nil => exact ⟨s, h, rfl, rfl⟩
  | cons Q rest ih =>
    obtain ⟨t, hstep, hreq, ht⟩ := step_serves h
    obtain ⟨v, hv, hcfg, hrun⟩ := ih hreq
    exact ⟨v, hv, hcfg.trans ht.cfg, (run_of_step hstep _).trans hrun⟩

/-- Settles O22: the earlier words leave CFG (`run_to_last_word`), all that the last one's response depends on. -/
theorem historyDoesNotChangeAResponse : Obligations.HistoryDoesNotChangeAResponse := by
  intro s earlier R
  obtain ⟨v, hv, hcfg, hrun⟩ := run_to_last_word earlier (s := withRequests s (earlier ++ [R])) rfl
  obtain ⟨t, u, ht, hu, hresp⟩ := step_response (s' := withRequests s [R]) hv rfl hcfg
  exact ⟨t, u, hrun.trans (run_of_step ht 0), run_of_step hu 0, hresp.valid, hresp.status, hresp.data⟩

/-! ### ENCODE (R80) -/

/-- Settles O24: the two ranges of DIGIT. -/
theorem encodeCompletes : Obligations.EncodeCompletes :=
  fun s _ => ⟨exec_encode_of_lt_ten s, exec_encode_of_ten_le s⟩

end Sys2Proof.Machine
end

section
/-! PROOF. PACK and UNPACK on their operands, their round trip through the response words, and the serial order (R44, R45,
R90 to R93). -/

namespace Sys2Proof.Machine

/-! ### PACK and UNPACK channel by channel (R90, R91, R93) -/

/-- PACK answers the frame word of the packed array (R90). -/
theorem exec_pack_frameWord (s : State) (ch : Channels) :
    exec (.pack ch) s = .next (afterSuccess s ((frameWord (packFrame ch)).setWidth 32)) := rfl

/-- Channels 7..0 stand in byteB, reversed (R93). -/
theorem channelOf_of_le_seven (data : Word) {k : Nat} (h : k ≤ 7) : channelOf data k = data.getLsbD (7 - k) := if_pos h

/-- Channels 15..8 stand in byteA, reversed (R93). -/
theorem channelOf_of_eight_le (data : Word) {k : Nat} (h : 8 ≤ k) : channelOf data k = data.getLsbD (23 - k) :=
  if_neg (by omega)

/-- Settles O26: each channel read back out of the response word (`channelOf_packFrame`). -/
theorem packCompletes : Obligations.PackCompletes := by
  intro s ch
  refine ⟨_, exec_pack_frameWord s ch, frameWord_fits _, fun k h8 h15 => ?_, fun k h7 => ?_⟩
  · rw [show 8 + (15 - k) = 23 - k by omega, ← channelOf_of_eight_le _ h8]
    exact channelOf_packFrame ch ⟨k, by omega⟩
  · rw [← channelOf_of_le_seven _ h7]
    exact channelOf_packFrame ch ⟨k, by omega⟩

/-- Settles O28: each bit of the response word of UNPACK. -/
theorem unpackCompletes : Obligations.UnpackCompletes := fun s a b =>
  ⟨_, exec_unpack s a b, unpackFrame_fits _, fun _ hi => ⟨getLsbD_unpackFrame_high _ hi, getLsbD_unpackFrame_low _ hi⟩⟩

/-! ### The round trip (R92) -/

theorem unpackFrame_packFrame (ch : Channels) : unpackFrame (packFrame ch) = ch := by
  refine BitVec.eq_of_getLsbD_eq fun k hk => ?_
  rw [getLsbD_unpackFrame, decide_eq_true hk, Bool.true_and]
  split
  · rw [getLsbD_packFrame_byteB, decide_eq_true (by omega), Bool.true_and, show 7 - (7 - k) = k by omega]
  · rw [getLsbD_packFrame_byteA, decide_eq_true (by omega), Bool.true_and, show 15 - (15 - k) = k by omega]

theorem packFrame_unpackFrame (f : Frame) : packFrame (unpackFrame f) = f := by
  have hA : (packFrame (unpackFrame f)).byteA = f.byteA := BitVec.eq_of_getLsbD_eq fun i hi => by
    rw [getLsbD_packFrame_byteA, getLsbD_unpackFrame, decide_eq_true hi, decide_eq_true (by omega), Bool.true_and,
      Bool.true_and, if_neg (by omega), show 15 - (15 - i) = i by omega]
  have hB : (packFrame (unpackFrame f)).byteB = f.byteB := BitVec.eq_of_getLsbD_eq fun i hi => by
    rw [getLsbD_packFrame_byteB, getLsbD_unpackFrame, decide_eq_true hi, decide_eq_true (by omega), Bool.true_and,
      Bool.true_and, if_pos (by omega), show 7 - (7 - i) = i by omega]
  exact (Frame.mk.injEq ..).mpr ⟨hA, hB⟩

/-- The bytes of a frame, read back out of its response word (R45). -/
theorem extract_frameWord (f : Frame) :
    ((frameWord f).setWidth 32).extractLsb' 8 8 = f.byteA ∧ ((frameWord f).setWidth 32).extractLsb' 0 8 = f.byteB := by
  rw [setWidth_frameWord]
  constructor
  · rw [BitVec.extractLsb'_append_eq_of_le (by decide), BitVec.extractLsb'_append_eq_of_add_le (by decide),
      BitVec.extractLsb'_eq_self]
  · rw [BitVec.extractLsb'_append_eq_of_add_le (by decide), BitVec.extractLsb'_eq_self]

/-- A channel array, read back out of its response word (R67). -/
theorem extract_setWidth_channels (ch : Channels) : (ch.setWidth 32).extractLsb' 0 16 = ch := by
  rw [← BitVec.setWidth_eq_extractLsb' (by decide), BitVec.setWidth_setWidth_of_le _ (by decide), BitVec.setWidth_eq]

/-- Settles O30: the response words hold the frame and the array whole, and packing and unpacking undo each other. -/
theorem packAndUnpackAreInverse : Obligations.PackAndUnpackAreInverse := by
  refine ⟨fun s s' ch => ⟨_, exec_pack_frameWord s ch, ?_⟩, fun s s' a b => ⟨_, exec_unpack s a b, ?_⟩⟩
  · obtain ⟨hA, hB⟩ := extract_frameWord (packFrame ch)
    rw [hA, hB, exec_unpack, unpackFrame_packFrame]
  · rw [extract_setWidth_channels, exec_pack_frameWord, packFrame_unpackFrame, setWidth_frameWord]

/-! ### The serial order (R42 to R45) -/

/-- byteA carries ch[15], …, ch[8] in the order it is sent (R44). -/
theorem byteStream_packFrame_byteA (ch : Channels) :
    byteStream (packFrame ch).byteA = (List.range 8).map fun i => ch.getLsbD (15 - i) :=
  List.map_congr_left fun i hi => by
    rw [getLsbD_packFrame_byteA, decide_eq_true (List.mem_range.1 hi), Bool.true_and]

/-- byteB carries ch[7], …, ch[0] in the order it is sent (R44). -/
theorem byteStream_packFrame_byteB (ch : Channels) :
    byteStream (packFrame ch).byteB = (List.range 8).map fun i => ch.getLsbD (7 - i) :=
  List.map_congr_left fun i hi => by
    rw [getLsbD_packFrame_byteB, decide_eq_true (List.mem_range.1 hi), Bool.true_and]

/-- byteB : byteA is the reversed array (R45). -/
theorem byteB_append_byteA (ch : Channels) : (packFrame ch).byteB ++ (packFrame ch).byteA = ch.reverse := by
  refine BitVec.eq_of_getLsbD_eq fun i hi => ?_
  have hrev : ch.reverse.getLsbD i = ch.getLsbD (15 - i) := by
    simp only [BitVec.getLsbD_reverse, BitVec.getMsbD, hi, decide_true, Bool.true_and]
  rw [BitVec.getLsbD_append, hrev]
  split
  · rw [getLsbD_packFrame_byteA, decide_eq_true (by omega), Bool.true_and]
  · rw [getLsbD_packFrame_byteB, decide_eq_true (by omega), Bool.true_and, show 7 - (i - 8) = 15 - i by omega]

/-- Settles O31: the two bytes' streams one after the other, and the reversal bit by bit. -/
theorem serialOrderOfAPackedFrame : Obligations.SerialOrderOfAPackedFrame := by
  refine fun ch => ⟨?_, byteB_append_byteA ch⟩
  have hrange : List.range 16 = List.range 8 ++ (List.range 8).map (8 + ·) := List.range_add (n := 8) (m := 8)
  have hlow (i : Nat) : 15 - (8 + i) = 7 - i := by omega
  simp only [serialStream, byteStream_packFrame_byteA, byteStream_packFrame_byteB, hrange, List.map_append, List.map_map,
    Function.comp_def, hlow]

end Sys2Proof.Machine
end

section
/-! PROOF. COMPOSE and FRAME on their operands (R100, R108 to R110), and their writes (R23, R111). -/

namespace Sys2Proof.Machine

/-! ### Where COMPOSE and FRAME trap (R108, R109, R135) -/

/-- Settles O35: the class of the phase and the countdown decides both operations. -/
theorem composeAndFrameTrap : Obligations.ComposeAndFrameTrap := by
  intro s pos r
  refine ⟨rfl, rfl, fun p hp hr => ?_⟩
  have h5 : phaseStatus (some p) r = 5#3 := (phaseStatus_eq_five_iff _ _).2 ⟨hr, p, hp, rfl⟩
  exact ⟨exec_of_instrStatus (i := .compose _ _ _) h5 (by decide) s, exec_of_instrStatus (i := .frame _ _) h5 (by decide) s⟩

/-! ### FRAME out of two compositions (R109) -/

/-- In YELLOW, and in RED and GREEN for a countdown in 0..199, the composition of each position makes a list of writes. -/
theorem exists_writes (c : Cfg) {p : Phase} {r : Int} (h : p = .yellow ∨ (0 ≤ r ∧ r ≤ 199)) (pos : DigitPos) :
    ∃ ws, composeWrites c p pos r = .ok ws := by
  by_cases hp : p = .yellow
  · exact ⟨_, hp ▸ composeWrites_yellow c pos r⟩
  · obtain ⟨h0, h1⟩ := h.resolve_left hp
    obtain ⟨d, -, hw⟩ := composeWrites_of_shown c hp pos h0 h1
    exact ⟨_, hw⟩

/-- Settles O37: FRAME answers the words of both positions' write lists (`exec_frame_of_writes`). -/
theorem frameJoinsBothPositions : Obligations.FrameJoinsBothPositions := by
  intro s p r h
  obtain ⟨w₁, h₁⟩ := exists_writes s.cfg h .p1
  obtain ⟨w₂, h₂⟩ := exists_writes s.cfg h .p2
  exact ⟨_, _, exec_compose_of_writes h₁, exec_compose_of_writes h₂, composedWord_fits _ _, composedWord_fits _ _,
    exec_frame_of_writes h₁ h₂⟩

/-! ### The hundred is not shown (R100, R110) -/

theorem composeFrame_add_hundred (c : Cfg) (ph : Option Phase) (pos : DigitPos) {r : Int} (h0 : 0 ≤ r) (h1 : r ≤ 99) :
    composeFrame c ph pos (r + 100) = composeFrame c ph pos r := by
  cases ph with
  | none => rfl
  | some p =>
    have hw : composeWrites c p pos (r + 100) = composeWrites c p pos r := by
      cases p with
      | red => simp only [composeWrites, splitDigits_add_hundred h0 h1]
      | green => simp only [composeWrites, splitDigits_add_hundred h0 h1]
      | yellow => rfl
    simp only [composeFrame, hw]

/-- Settles O40: all three read the countdown through its display value, which drops the hundred. -/
theorem hundredsAreNotShown : Obligations.HundredsAreNotShown := by
  intro s ph pos r h0 h1
  have hframe (pos : DigitPos) := composeFrame_add_hundred s.cfg ph pos h0 h1
  refine ⟨?_, ?_, ?_⟩
  · simp only [exec, execSplit, splitResult, splitDigits_add_hundred h0 h1]
  · simp only [exec, execCompose, composeResult, hframe]
  · simp only [exec, execFrame, frameResult, hframe]

/-! ### The two halves of FRAME (R109, R110) -/

/-- A channel of a frame stands in bits 15:0 of the word (R93). -/
theorem channelOf_congr {a b : Word} (h : a.setWidth 16 = b.setWidth 16) (k : ChannelPos) :
    channelOf a k = channelOf b k := by
  have hbit {i : Nat} (hi : i < 16) : a.getLsbD i = b.getLsbD i := by
    simpa [hi] using congrArg (BitVec.getLsbD · i) h
  unfold channelOf
  split
  · exact hbit (by omega)
  · exact hbit (by omega)

section Halves
variable {d₁ d₂ : Word}

/-- Bits 31:16 of two 16-bit words side by side are the upper one. -/
theorem joined_shift (h₁ : d₁.toNat < 65536) (h₂ : d₂.toNat < 65536) :
    BitVec.ofNat 32 (65536 * d₁.toNat + d₂.toNat) >>> 16 = d₁ := by
  refine BitVec.eq_of_toNat_eq ?_
  rw [BitVec.toNat_ushiftRight, BitVec.toNat_ofNat, Nat.shiftRight_eq_div_pow]
  omega

/-- Bits 15:0 of two 16-bit words side by side are the lower one. -/
theorem joined_low : (BitVec.ofNat 32 (65536 * d₁.toNat + d₂.toNat)).setWidth 16 = d₂.setWidth 16 := by
  refine BitVec.eq_of_toNat_eq ?_
  rw [BitVec.toNat_setWidth, BitVec.toNat_setWidth, BitVec.toNat_ofNat]
  omega

end Halves

/-- Settles O41: each half of FRAME is the composed frame of its position, which enables that position's digit alone. -/
theorem frameHalvesEnableOppositeDigits : Obligations.FrameHalvesEnableOppositeDigits := by
  intro s p r hc hp h0 h1
  obtain ⟨w₁, hw₁, hf₁⟩ := exists_writes_composedFrame hc (.inr ⟨h0, h1⟩) .p1
  obtain ⟨w₂, hw₂, hf₂⟩ := exists_writes_composedFrame hc (.inr ⟨h0, h1⟩) .p2
  refine ⟨_, exec_frame_of_writes hw₁ hw₂, ?_⟩
  rw [joined_shift hf₁.fits hf₂.fits, channelOf_congr joined_low, channelOf_congr joined_low]
  exact ⟨hf₁.tensEnable.trans (if_pos ⟨hp, rfl⟩), hf₂.tensEnable.trans (if_neg fun h => nomatch h.2),
    hf₁.onesEnable.trans (if_neg fun h => nomatch h.2), hf₂.onesEnable.trans (if_pos ⟨hp, rfl⟩)⟩

/-! ### The writes of a composition (R23, R111) -/

/-- With distinct positions the order of writes does not matter. -/
theorem applyWrites_perm {ws vs : List (ChannelPos × Bool)} (hnd : (ws.map Prod.fst).Nodup) (h : ws.Perm vs)
    (ch : Channels) : applyWrites ch vs = applyWrites ch ws := by
  have hpos : (ws.map Prod.fst).Perm (vs.map Prod.fst) := h.map _
  refine channels_ext fun j => ?_
  by_cases hj : j ∈ ws.map Prod.fst
  · obtain ⟨w, hw, rfl⟩ := List.mem_map.1 hj
    rw [getLsbD_applyWrites_of_mem ws hnd ch w hw,
      getLsbD_applyWrites_of_mem vs (hpos.nodup_iff.1 hnd) ch w (h.mem_iff.1 hw)]
  · rw [getLsbD_applyWrites_of_not_mem ws ch j hj, getLsbD_applyWrites_of_not_mem vs ch j (mt hpos.mem_iff.2 hj)]

/-- Settles O42: the positions of a composition's writes are distinct (`writes_positions_nodup`). -/
theorem writeOrderDoesNotMatter : Obligations.WriteOrderDoesNotMatter :=
  fun _ _ _ _ _ _ ch hc hw hperm => applyWrites_perm (writes_positions_nodup hc hw) hperm ch

theorem mem_unmapped_iff (c : Cfg) (k : ChannelPos) : k ∈ unmapped c ↔ k ∉ positions c := by
  simp [unmapped]

/-- The 16 positions are the 12 mapped ones and 4 others (R23). -/
theorem unmapped_length {c : Cfg} (hc : accepted c = true) : (unmapped c).length = 4 := by
  have hmapped : ((List.finRange 16).filter fun k => (positions c).contains k).Perm (positions c) :=
    (List.perm_ext_iff_of_nodup ((List.nodup_finRange 16).filter _) (of_decide_eq_true hc)).2 fun k => by simp
  have htwelve : (positions c).length = 12 := by rw [positions_eq]; rfl
  have hsplit : (List.finRange 16).length = _ + (unmapped c).length :=
    List.length_eq_length_filter_add fun k => (positions c).contains k
  rw [hmapped.length_eq, htwelve, List.length_finRange] at hsplit
  omega

/-- A composition writes mapped positions alone (R23). -/
theorem writes_mapped {c : Cfg} {p : Phase} {pos : DigitPos} {r : Int} {ws : List (ChannelPos × Bool)}
    (h : composeWrites c p pos r = .ok ws) {k : ChannelPos} (hk : k ∉ positions c) : k ∉ ws.map Prod.fst := by
  rcases composeWrites_cases h with ⟨-, rfl⟩ | ⟨-, d, rfl⟩
  · exact not_mem_yellowWrites hk
  · exact not_mem_showWrites hk p pos d

/-- Settles O43: 16 positions less the 12 distinct mapped ones (`unmapped_length`), and no write on one of them. -/
theorem fourPositionsAreUnmapped : Obligations.FourPositionsAreUnmapped := by
  refine fun c hc => ⟨unmapped_length hc, fun p pos r ws h k hk w hw e => ?_⟩
  exact writes_mapped h ((mem_unmapped_iff c k).1 hk) (e ▸ List.mem_map_of_mem hw)

end Sys2Proof.Machine
end
